-- ==== Sys2Proof/Config.lean ====
section
/-! DEFINITION. The constants of the DZ4 CORE (R4 of 00_scope.md, R55 of 30_encoding.md), each in one place.

The source's numeric literals are unaudited (U9 of 93_implementation_defined.md; log 11): a later audit changes a value
here and nowhere else. Nothing in the machine is a free value (R107 of 43_fetch_decode_execute.md), so no constant here is
opaque. `PROG_LEN` and the window bounds are arguments of a run and of a read-out, not constants (R4). -/

namespace Sys2Proof.Config

/-- `MEM_SIZE`: the number of data-memory cells, addresses 0..1023 (R4, R13). -/
abbrev memSize : Nat := 1024

/-- `REG_COUNT`: the number of registers, indices 0..255 (R4, R10). -/
abbrev regCount : Nat := 256

/-- `W`: the width in bits of a register cell and of a memory cell. DESIGN CHOICE (log 3, safe): the source gives no width
and the spec leaves `W >= 16` open; this is the spec's reference value, and by R14 every `W >= 16` gives the same run. -/
abbrev cellWidth : Nat := 16

/-- `OPC_LOAD_CONST` (R4, R55): 0xC0. -/
abbrev opcLoadConst : BitVec 8 := 192

/-- `OPC_READ_MEM` (R4, R55): 0xF7. -/
abbrev opcReadMem : BitVec 8 := 247

/-- `OPC_WRITE_MEM` (R4, R55): 0x73. -/
abbrev opcWriteMem : BitVec 8 := 115

/-- `OPC_BIN_OP_LE` (R4, R55): 0x53. -/
abbrev opcBinOpLe : BitVec 8 := 83

/-- Length in bytes of a format I instruction: LOAD_CONST and READ_MEM (R50, R51). -/
abbrev lenI : Nat := 4

/-- Length in bytes of a format M instruction: WRITE_MEM (R50, R52). -/
abbrev lenM : Nat := 4

/-- Length in bytes of a format C instruction: BIN_OP_LE (R50, R53). -/
abbrev lenC : Nat := 5

/-- The shortest instruction, in bytes: a completed step advances `pc` by at least this much (R109). -/
abbrev lenMin : Nat := 4

end Sys2Proof.Config
end

