-- ==== Sys2Proof/Word.lean ====
section
/-! DEFINITION. The word types of the DZ4 CORE (R5, R7 of 00_scope.md). -/

namespace Sys2Proof

/-- A `u8`: one byte of the program stream, a register index or an offset (R5, R54). -/
abbrev Byte : Type := BitVec 8

/-- A `u16`: the immediate of LOAD_CONST, the address of READ_MEM (R5, R54). -/
abbrev Half : Type := BitVec 16

/-- A cell: one element of the register file or of the data memory, an unsigned integer of `W` bits (R5, R10, R13). -/
abbrev Cell : Type := BitVec Config.cellWidth

end Sys2Proof
end

