-- ==== Sys2Proof/Machine/Flags.lean ====
section
/-! DEFINITION. The ALU. The machine has no flags, condition codes or predicates (R19 of 10_state.md): the outcome of its
one comparison is a cell value (R94 of 42_bin_op_le.md). -/

namespace Sys2Proof.Machine

/-- The ALU's one operation: the cell value 1 when `a <= b` as unsigned integers over the whole cell width, else 0 (R94). -/
def aluLe (a b : Cell) : Cell := if a.toNat ≤ b.toNat then 1 else 0

end Sys2Proof.Machine
end

