-- ==== Sys2Proof/Machine/State.lean ====
section
/-! DEFINITION. The architectural state of one DZ4 CORE instance (10_state.md), the reasons a step can stop, and reset. -/

namespace Sys2Proof.Machine

/-- The data memory (R13): its cells by address, as a list in one canonical form (addresses strictly rising and below
`MEM_SIZE`, no entry equal to what an unlisted address reads as; `Memory.wf` of Machine/Ops.lean). The unit is the cell, not
the byte (R13, R32; log 9). -/
abbrev Memory : Type := List (Nat × Cell)

/-- The engine's status (R20). -/
inductive Status where
  /-- No fault has occurred and `pc < PROG_LEN`. -/
  | ready
  /-- No fault has occurred and `pc = PROG_LEN`: the successful end of a run (R111). -/
  | halted
  /-- A step raised a fault; terminal and sticky (R130). -/
  | faulted
  deriving DecidableEq, Repr

/-- The engine's fault kinds: exactly the three that are reachable in it (R120, R121, R125). A step that raises one TAKES it:
its outcome is a next state whose fault record names the kind (R127; log 5), and no step answers `Host.Outcome.fault`.
That is safe: the fault entry is the spec's own, so no outcome is lost and none is added. -/
inductive Fault where
  /-- The opcode byte is none of the four values; raised by fetch in `Machine.step` (R102, R122). -/
  | unknownOpcode
  /-- A legal opcode byte is followed by too few bytes; raised by fetch in `Machine.step` (R103, R123; the kind is the
  spec's own, D5). -/
  | truncatedInstruction
  /-- A computed data address is `MEM_SIZE` or more; raised by READ_MEM, WRITE_MEM and BIN_OP_LE (R124). -/
  | outOfRange
  deriving DecidableEq, Repr

/-- The fault record, written once by the step that faults (R21). -/
structure FaultRecord where
  kind : Fault
  /-- The offset of the faulting instruction's opcode byte (R21, R127). -/
  faultPc : Nat
  /-- The opcode byte, the count of bytes available, or the offending address (R21; the spec's own, D8; log 15). -/
  info : Nat
  deriving DecidableEq, Repr

/-- Why a step answers no next state. -/
inductive Refusal where
  /-- Raised by `exec`'s arm of an instruction that has no meaning yet (none is left). Safe: nothing is claimed of it. -/
  | notModelled (mnemonic : String)
  /-- Raised by `Machine.step` in a `Halted` state: `step` is inapplicable there, which is the successful end and no fault
  (R101, U5; log 6). Safe: the spec gives no transition. -/
  | halted
  /-- Raised by `Machine.step` in a `Faulted` state: `step` is inapplicable there (R101, R130, U6; log 6). Safe: the spec
  gives no transition. -/
  | faulted
  deriving DecidableEq, Repr

/-- The state of one instance (the tuple at the head of 10_state.md), and the program stream it runs. -/
structure State where
  /-- The register file: 256 cells, all alike (R10). -/
  registers : Vector Cell Config.regCount
  /-- The data memory: 1024 cells (R13). -/
  memory : Memory
  /-- The byte cursor: the offset of the next instruction's opcode byte, a natural number (R15, R17, D4; log 4). -/
  pc : Nat
  /-- `Ready`, `Halted` or `Faulted` (R20; stored, log 7). -/
  status : Status
  /-- The fault record, none until a step faults (R21). -/
  fault : Option FaultRecord
  /-- The program byte stream; `PROG_LEN` is its length. A parameter of the run that nothing writes (R18, R46); it stands
  here because the host's `step` is given nothing but a state (log 1). -/
  prog : List Byte
  deriving DecidableEq, Repr

/-- The reset state of an instance that has been given the stream `prog` (R26, R150, R153): registers and memory all 0,
`pc` 0, no fault, `Ready` if the stream has a byte and `Halted` if it has none. -/
def State.init (prog : List Byte) : State where
  registers := Vector.replicate Config.regCount 0
  memory := []
  pc := 0
  status := if prog.length = 0 then .halted else .ready
  fault := none
  prog := prog

/-- The machine right after reset, with no program loaded (R26 with `PROG_LEN` = 0; log 2). -/
def State.reset : State := State.init []

end Sys2Proof.Machine
end

