-- ==== Sys2Proof/Machine/Ops.lean ====
section
/-! DEFINITION. The named operations over registers and memory (R7 of 00_scope.md), completing an instruction, taking a
fault, and the one way out of a fault, reset. -/

namespace Sys2Proof.Machine

/-! ### Registers -/

/-- `x[i]`: the value of register `i`; always succeeds, since an index is 8 bits and there are 256 registers (R7, R11). -/
def State.reg (s : State) (i : Byte) : Cell := s.registers[i.toNat]'i.isLt

/-- `x[i] <- v` (R7). -/
def State.setReg (s : State) (i : Byte) (v : Cell) : State :=
  { s with registers := s.registers.set i.toNat v i.isLt }

/-! ### Data memory -/

/-- What an address nothing has written reads as: 0, the spec's reset content (R13, R26, R37). -/
def unlistedCell : Cell := 0

/-- The content of the cell at address `a`. -/
def Memory.read : Memory → Nat → Cell
  | [], _ => unlistedCell
  | (b, v) :: m, a => if b = a then v else Memory.read m a

/-- The memory without an entry for address `a`. -/
def Memory.erase : Memory → Nat → Memory
  | [], _ => []
  | (b, v) :: m, a => if b = a then Memory.erase m a else (b, v) :: Memory.erase m a

/-- An entry put before the first one with a higher address. -/
def Memory.insert : Memory → Nat → Cell → Memory
  | [], a, v => [(a, v)]
  | (b, w) :: m, a, v => if a < b then (a, v) :: (b, w) :: m else (b, w) :: Memory.insert m a v

/-- The memory with cell `a` holding `v` and every other cell as before (R37), in canonical form. -/
def Memory.write (m : Memory) (a : Nat) (v : Cell) : Memory :=
  if v = unlistedCell then Memory.erase m a else Memory.insert (Memory.erase m a) a v

/-- Every address of the list is at least `n` and below `MEM_SIZE`, they rise strictly, and no entry equals what an
unlisted address reads as. -/
def Memory.wfFrom : Nat → Memory → Bool
  | _, [] => true
  | n, (a, v) :: m => decide (n ≤ a) && decide (a < Config.memSize) && decide (v ≠ unlistedCell) && Memory.wfFrom (a + 1) m

/-- The canonical form of the memory. -/
def Memory.wf (m : Memory) : Bool := Memory.wfFrom 0 m

/-- `memory[a] <- v`, `a` being in range (R7, R37). -/
def State.setCell (s : State) (a : Nat) (v : Cell) : State := { s with memory := Memory.write s.memory a v }

/-! ### Faults -/

/-- What a primitive raises: a kind and its info (R7 `raise K(info)`). -/
structure Raised where
  kind : Fault
  info : Nat
  deriving DecidableEq, Repr

/-- TAKING A FAULT, the one shared operation (R127): the record is `(kind, pc, info)`, the status is `Faulted`; registers,
memory and `pc` keep the values they had when the step began. Nothing is saved elsewhere and control goes nowhere. -/
def State.raise (s : State) (e : Raised) : State :=
  { s with fault := some ⟨e.kind, s.pc, e.info⟩, status := .faulted }

/-- THE ONLY WAY OUT of `Faulted` or `Halted` (R130, R151): there is no return from a fault, and reset discards the whole
state but the stream, which is no state of the core. -/
def State.restart (s : State) : State := State.init s.prog

/-- The numeric cause code of a recorded fault, 0 for none (R121; labels of the spec's own, D23; log 22). -/
def faultCode : Option FaultRecord → Nat
  | none => 0
  | some r =>
    match r.kind with
    | .unknownOpcode => 1
    | .truncatedInstruction => 2
    | .outOfRange => 3

/-- The cause code of the encoder's `OperandOverflow` (R121). -/
def operandOverflowCode : Nat := 4

/-! ### Checked accesses -/

/-- `MemCheck(a)`: raises `OutOfRange(a)` if `a >= MEM_SIZE`, reads and writes nothing (R7, R40). -/
def memCheck (a : Nat) : Except Raised Unit :=
  if a < Config.memSize then .ok () else .error ⟨.outOfRange, a⟩

/-- `MemRead(a)` (R7). -/
def State.memRead (s : State) (a : Nat) : Except Raised Cell :=
  match memCheck a with
  | .ok _ => .ok (Memory.read s.memory a)
  | .error e => .error e

/-- `MemWrite(a, v)` (R7). -/
def State.memWrite (s : State) (a : Nat) (v : Cell) : Except Raised State :=
  match memCheck a with
  | .ok _ => .ok (s.setCell a v)
  | .error e => .error e

/-! ### Completing an instruction -/

/-- R20 as a function of `fault`, `pc` and `PROG_LEN`: what `status` is in every state a run reaches. -/
def State.statusOf (s : State) : Status :=
  if s.fault ≠ none then .faulted else if s.pc = s.prog.length then .halted else .ready

/-- The end of an instruction of `n` bytes that did not fault: `pc` advances by `n` (R16), and the status becomes `Halted`
if `pc = PROG_LEN`, else `Ready` (R100, R106). -/
def State.retire (s : State) (n : Nat) : State :=
  { s with pc := s.pc + n, status := if s.pc + n = s.prog.length then .halted else .ready }

/-- The end of an instruction of `n` bytes that began in `s`: it either completes with the state its body wrote or takes
the fault its body raised, with nothing written (R105, R127). -/
def State.complete (s : State) (n : Nat) (body : Except Raised State) : Host.Outcome State Fault Refusal :=
  match body with
  | .ok t => .next (t.retire n)
  | .error e => .next (s.raise e)

end Sys2Proof.Machine
end

