-- ==== Sys2Proof/Machine/Operands.lean ====
section
/-! DEFINITION. The operand forms of the four instructions (R57, R58 of 30_encoding.md, R85, R89 of 41_memory_access.md,
R92, R95 of 42_bin_op_le.md). The register form is `State.reg` of Machine/Ops.lean. -/

namespace Sys2Proof.Machine

/-- A 16-bit immediate as a cell: zero-extended to `W` bits, which changes no value (R7 `zext_W`, R57). -/
def zextW (v : Half) : Cell := BitVec.ofNat Config.cellWidth v.toNat

/-- Absolute address (READ_MEM): the 16-bit field as it is, not scaled, not extended (R57, R85). -/
def absolute (addr : Half) : Nat := addr.toNat

/-- Register base plus offset (WRITE_MEM's destination, BIN_OP_LE's right operand): the exact sum of the register's value
and the unsigned offset, never reduced and never clamped (R57, R89, D2; log 18). -/
def State.basePlusOffset (s : State) (base offset : Byte) : Nat := (s.reg base).toNat + offset.toNat

/-- Register indirect without offset (BIN_OP_LE's destination): the value in the register is the address (R92, R95). -/
def State.indirect (s : State) (r : Byte) : Nat := (s.reg r).toNat

end Sys2Proof.Machine
end

