-- ==== Sys2Proof/Machine/Compare.lean ====
section
/-! DEFINITION. The compare family (42_bin_op_le.md). -/

namespace Sys2Proof.Machine

/-- BIN_OP_LE dst, lhs, rhs_base, rhs_offset (R93). Both addresses are checked before anything is read or written, the read
address first (R126, D9; log 13); the right operand is read before the result is written, so that a result written to the
operand's own cell is computed from the old content (R96, D21; log 16); no register is written (R95). -/
def execBinOpLe (dst lhs rhsBase rhsOffset : Byte) (s : State) : Host.Outcome State Fault Refusal :=
  s.complete Config.lenC do
    memCheck (s.basePlusOffset rhsBase rhsOffset)
    memCheck (s.indirect dst)
    let b ← s.memRead (s.basePlusOffset rhsBase rhsOffset)
    s.memWrite (s.indirect dst) (aluLe (s.reg lhs) b)

end Sys2Proof.Machine
end

