-- ==== Sys2Proof/Machine/LoadConst.lean ====
section
/-! DEFINITION. The register load family (40_load_const.md). -/

namespace Sys2Proof.Machine

/-- LOAD_CONST dst, value (R81): `x[dst] <- zext_W(value); pc <- pc + 4`. -/
def execLoadConst (dst : Byte) (value : Half) (s : State) : Host.Outcome State Fault Refusal :=
  s.complete Config.lenI (.ok (s.setReg dst (zextW value)))

end Sys2Proof.Machine
end

