-- ==== Sys2Proof/Machine/MemoryAccess.lean ====
section
/-! DEFINITION. The memory access family (41_memory_access.md). -/

namespace Sys2Proof.Machine

/-- READ_MEM dst, addr (R86): `v <- MemRead(addr); x[dst] <- v; pc <- pc + 4`. -/
def execReadMem (dst : Byte) (addr : Half) (s : State) : Host.Outcome State Fault Refusal :=
  s.complete Config.lenI do
    let v ← s.memRead (absolute addr)
    .ok (s.setReg dst v)

/-- WRITE_MEM base, src, offset (R88): `ea <- x[base] + offset; v <- x[src]; MemWrite(ea, v); pc <- pc + 4`. -/
def execWriteMem (base src offset : Byte) (s : State) : Host.Outcome State Fault Refusal :=
  s.complete Config.lenM (s.memWrite (s.basePlusOffset base offset) (s.reg src))

end Sys2Proof.Machine
end

