-- ==== Sys2Proof/Syntax.lean ====
section
/-! DEFINITION. The instructions of the DZ4 CORE and the encoder's input records (R62 of 30_encoding.md). -/

namespace Sys2Proof

/-- The instruction record as the decoder answers it: "a tagged variant over four forms, each carrying a fixed number of
unsigned operands" (R62). Each operand is within its field by its type (R54); every operand value is legal (R60). -/
inductive Instr where
  /-- LOAD_CONST dst, value (R81). -/
  | loadConst (dst : Byte) (value : Half)
  /-- READ_MEM dst, addr (R86). -/
  | readMem (dst : Byte) (addr : Half)
  /-- WRITE_MEM base, src, offset (R88). -/
  | writeMem (base src offset : Byte)
  /-- BIN_OP_LE dst, lhs, rhs_base, rhs_offset (R93). -/
  | binOpLe (dst lhs rhsBase rhsOffset : Byte)
  deriving DecidableEq, Repr

/-- The instruction record as it reaches the encoder: each operand is a natural number that may be too large for its field
(R62, R64, D12). -/
inductive Record where
  | loadConst (dst value : Nat)
  | readMem (dst addr : Nat)
  | writeMem (base src offset : Nat)
  | binOpLe (dst lhs rhsBase rhsOffset : Nat)
  deriving DecidableEq, Repr

/-- The names of the operand fields (R51 to R53, R62), used to say which operand overflowed (R64). -/
inductive OperandName where
  | dst
  | value
  | addr
  | base
  | src
  | offset
  | lhs
  | rhsBase
  | rhsOffset
  deriving DecidableEq, Repr

/-- The trace record of one instruction: `A` the opcode, `B` to `E` the operands, fields `D` and `E` present only where
the opcode has that many operands (R67). -/
structure TraceRecord where
  A : Nat
  B : Nat
  C : Nat
  D : Option Nat
  E : Option Nat
  deriving DecidableEq, Repr

end Sys2Proof
end

