-- ==== Sys2Proof/Machine/Dispatch.lean ====
section
/-! DEFINITION. Dispatch to the four meanings (R104 of 43_fetch_decode_execute.md): one arm per constructor. -/

namespace Sys2Proof.Machine

def exec (i : Instr) (s : State) : Host.Outcome State Fault Refusal :=
  match i with
  | .loadConst dst value => Sys2Proof.Machine.execLoadConst dst value s
  | .readMem dst addr => Sys2Proof.Machine.execReadMem dst addr s
  | .writeMem base src offset => Sys2Proof.Machine.execWriteMem base src offset s
  | .binOpLe dst lhs rhsBase rhsOffset => Sys2Proof.Machine.execBinOpLe dst lhs rhsBase rhsOffset s

end Sys2Proof.Machine
end

