-- ==== Sys2Proof/WellFormed.lean ====
section
/-! DEFINITION. When a record is valid: every operand fits its field (R54, R64 of 30_encoding.md).

There is no other check: an address is not compared with `MEM_SIZE` (R64, R87), and no operand value is restricted inside
a legal opcode (R60). An `Instr` fits by its type, so `Instr.wf` holds of every one. -/

namespace Sys2Proof

/-- A `u8` operand is valid when it is at most 255 (R64). -/
def fitsU8 (v : Nat) : Bool := decide (v ≤ 255)

/-- A `u16` operand is valid when it is at most 65535 (R64). -/
def fitsU16 (v : Nat) : Bool := decide (v ≤ 65535)

/-- Every operand of the record fits its field (R54, R64). -/
def Record.wf : Record → Bool
  | .loadConst dst value => fitsU8 dst && fitsU16 value
  | .readMem dst addr => fitsU8 dst && fitsU16 addr
  | .writeMem base src offset => fitsU8 base && fitsU8 src && fitsU8 offset
  | .binOpLe dst lhs rhsBase rhsOffset => fitsU8 dst && fitsU8 lhs && fitsU8 rhsBase && fitsU8 rhsOffset

/-- The record that stands for an instruction: the same form, the operands as natural numbers (R62). -/
def Instr.toRecord : Instr → Record
  | .loadConst dst value => .loadConst dst.toNat value.toNat
  | .readMem dst addr => .readMem dst.toNat addr.toNat
  | .writeMem base src offset => .writeMem base.toNat src.toNat offset.toNat
  | .binOpLe dst lhs rhsBase rhsOffset => .binOpLe dst.toNat lhs.toNat rhsBase.toNat rhsOffset.toNat

/-- An instruction is well formed when its record is. -/
def Instr.wf (i : Instr) : Bool := i.toRecord.wf

end Sys2Proof
end

