-- ==== Sys2Proof/Decode.lean ====
section
/-! DEFINITION. The decoder, the encoder and the trace record (R50 to R71 of 30_encoding.md). -/

namespace Sys2Proof

/-! ### Byte order and lengths -/

/-- `le16(lo, hi) = lo + 256*hi` (R7, R31, R57): the one place that fixes the byte order. PRESUMED (log 10, unsafe):
"little-endian" means low byte first (G3). -/
def le16 (lo hi : Byte) : Half := BitVec.ofNat 16 (lo.toNat + 256 * hi.toNat)

/-- The low byte of a 16-bit field, at the lower stream offset: `v mod 256` (R65). -/
def lowByte (v : Half) : Byte := BitVec.ofNat 8 (v.toNat % 256)

/-- The high byte of a 16-bit field, at the higher stream offset: `v div 256` (R65). -/
def highByte (v : Half) : Byte := BitVec.ofNat 8 (v.toNat / 256)

/-- The length in bytes an opcode byte announces; none for the 252 illegal opcode bytes (R50, R55, R59, R61). The opcode
is compared as a whole byte (R55, R104). -/
def opcodeWidth (op : Byte) : Option Nat :=
  if op = Config.opcLoadConst then some Config.lenI
  else if op = Config.opcReadMem then some Config.lenI
  else if op = Config.opcWriteMem then some Config.lenM
  else if op = Config.opcBinOpLe then some Config.lenC
  else none

/-- `width(x)`: the encoded length of an instruction in bytes (R63). -/
def Instr.width : Instr → Nat
  | .loadConst .. => Config.lenI
  | .readMem .. => Config.lenI
  | .writeMem .. => Config.lenM
  | .binOpLe .. => Config.lenC

/-- The opcode byte of an instruction (R55). -/
def Instr.opcode : Instr → Byte
  | .loadConst .. => Config.opcLoadConst
  | .readMem .. => Config.opcReadMem
  | .writeMem .. => Config.opcWriteMem
  | .binOpLe .. => Config.opcBinOpLe

/-! ### The decoder -/

/-- The decoder's two error conditions (R69). -/
inductive DecodeError where
  /-- The opcode byte is none of the four values (R59). -/
  | unknownOpcode (op : Byte)
  /-- A legal opcode byte is followed by too few bytes, of which `available`, the opcode's included, are present; 0 where
  there is no byte to decode (R68, R69; the kind is the spec's own, D5; log 12). -/
  | truncatedInstruction (available : Nat)
  deriving DecidableEq, Repr

/-- `Decode` of the bytes that start at the offset (R68): opcode byte first, then its operand bytes; the instruction and
the number of bytes consumed, or an error. -/
def decodeHead : List Byte → Except DecodeError (Instr × Nat)
  | [] => .error (.truncatedInstruction 0)
  | op :: rest =>
    if op = Config.opcLoadConst then
      match rest with
      | b1 :: b2 :: b3 :: _ => .ok (.loadConst b1 (le16 b2 b3), Config.lenI)
      | _ => .error (.truncatedInstruction (rest.length + 1))
    else if op = Config.opcReadMem then
      match rest with
      | b1 :: b2 :: b3 :: _ => .ok (.readMem b1 (le16 b2 b3), Config.lenI)
      | _ => .error (.truncatedInstruction (rest.length + 1))
    else if op = Config.opcWriteMem then
      match rest with
      | b1 :: b2 :: b3 :: _ => .ok (.writeMem b1 b2 b3, Config.lenM)
      | _ => .error (.truncatedInstruction (rest.length + 1))
    else if op = Config.opcBinOpLe then
      match rest with
      | b1 :: b2 :: b3 :: b4 :: _ => .ok (.binOpLe b1 b2 b3 b4, Config.lenC)
      | _ => .error (.truncatedInstruction (rest.length + 1))
    else .error (.unknownOpcode op)

/-- `Decode(bytes, off)` (R68), total on any byte sequence and offset (R71). -/
def decode (bytes : List Byte) (off : Nat) : Except DecodeError (Instr × Nat) := decodeHead (bytes.drop off)

/-! ### The encoder -/

/-- `Encode` of a record all of whose operands fit their fields (R65): exactly `width` bytes. -/
def encode : Instr → List Byte
  | .loadConst dst value => [Config.opcLoadConst, dst, lowByte value, highByte value]
  | .readMem dst addr => [Config.opcReadMem, dst, lowByte addr, highByte addr]
  | .writeMem base src offset => [Config.opcWriteMem, base, src, offset]
  | .binOpLe dst lhs rhsBase rhsOffset => [Config.opcBinOpLe, dst, lhs, rhsBase, rhsOffset]

/-- The trace record (R67): `A` the opcode, the operands in operand order under `B`, `C`, `D`, `E` (that order is the
spec's own reading, D16; log 21). -/
def trace : Instr → TraceRecord
  | .loadConst dst value => ⟨Config.opcLoadConst.toNat, dst.toNat, value.toNat, none, none⟩
  | .readMem dst addr => ⟨Config.opcReadMem.toNat, dst.toNat, addr.toNat, none, none⟩
  | .writeMem base src offset => ⟨Config.opcWriteMem.toNat, base.toNat, src.toNat, some offset.toNat, none⟩
  | .binOpLe dst lhs rhsBase rhsOffset =>
    ⟨Config.opcBinOpLe.toNat, dst.toNat, lhs.toNat, some rhsBase.toNat, some rhsOffset.toNat⟩

/-- `OperandOverflow`: the operand that does not fit its field, and its value (R64, R120). Raised by the encoder only; it is
no machine fault (R131). -/
structure OperandOverflow where
  operand : OperandName
  value : Nat
  deriving DecidableEq, Repr

/-- A record's operands in operand order (R55), each with its name and whether it fits its field (R54). -/
def Record.operands : Record → List (OperandName × Nat × Bool)
  | .loadConst dst value => [(.dst, dst, fitsU8 dst), (.value, value, fitsU16 value)]
  | .readMem dst addr => [(.dst, dst, fitsU8 dst), (.addr, addr, fitsU16 addr)]
  | .writeMem base src offset => [(.base, base, fitsU8 base), (.src, src, fitsU8 src), (.offset, offset, fitsU8 offset)]
  | .binOpLe dst lhs rhsBase rhsOffset =>
    [(.dst, dst, fitsU8 dst), (.lhs, lhs, fitsU8 lhs), (.rhsBase, rhsBase, fitsU8 rhsBase),
      (.rhsOffset, rhsOffset, fitsU8 rhsOffset)]

/-- The first operand of a list that does not fit its field. -/
def firstMisfit : List (OperandName × Nat × Bool) → Option OperandOverflow
  | [] => none
  | (name, v, fits) :: rest => if fits then firstMisfit rest else some ⟨name, v⟩

/-- The encoder's operand check: the first operand, in operand order, that exceeds its field (R64, D12; log 20). -/
def Record.overflow (r : Record) : Option OperandOverflow := firstMisfit r.operands

/-- The instruction a valid record stands for. It is used only after `Record.overflow` has answered none, so that no
operand is cut off (R64; cutting off is the reference's bug, C7). -/
def Record.toInstr : Record → Instr
  | .loadConst dst value => .loadConst (BitVec.ofNat 8 dst) (BitVec.ofNat 16 value)
  | .readMem dst addr => .readMem (BitVec.ofNat 8 dst) (BitVec.ofNat 16 addr)
  | .writeMem base src offset => .writeMem (BitVec.ofNat 8 base) (BitVec.ofNat 8 src) (BitVec.ofNat 8 offset)
  | .binOpLe dst lhs rhsBase rhsOffset =>
    .binOpLe (BitVec.ofNat 8 dst) (BitVec.ofNat 8 lhs) (BitVec.ofNat 8 rhsBase) (BitVec.ofNat 8 rhsOffset)

/-- What the encoder answers for one record: bytes, width and trace record (R25, R63, R65, R67). -/
structure Encoded where
  bytes : List Byte
  width : Nat
  trace : TraceRecord
  deriving DecidableEq, Repr

/-- `Encode(x)` with its operand check: on `OperandOverflow` no bytes and no trace record (R64, R65, R67). -/
def encodeRecord (r : Record) : Except OperandOverflow Encoded :=
  match r.overflow with
  | some o => .error o
  | none => .ok ⟨encode r.toInstr, r.toInstr.width, trace r.toInstr⟩

/-- A program is encoded by concatenation, and if one instruction fails the whole encoding fails with no partial output
(R66, R77). The error also says which instruction failed, counting from `n` (the index is the model's own, log 20). Where
several instructions of the program overflow, the first in program order is the one reported: DESIGN CHOICE (log 34, unsafe),
R66 does not say which and D12 orders only the operands of one record. -/
def encodeProgramFrom (n : Nat) : List Record → Except (Nat × OperandOverflow) (List Byte × List TraceRecord)
  | [] => .ok ([], [])
  | r :: rs =>
    match encodeRecord r with
    | .error o => .error (n, o)
    | .ok e =>
      match encodeProgramFrom (n + 1) rs with
      | .error o => .error o
      | .ok (bytes, traces) => .ok (e.bytes ++ bytes, e.trace :: traces)

/-- The program encoder (R66): bytes and trace records in instruction order, the first instruction having index 0. -/
def encodeProgram (rs : List Record) : Except (Nat × OperandOverflow) (List Byte × List TraceRecord) :=
  encodeProgramFrom 0 rs

/-! ### The opcode table's view of an instruction as one number -/

/-- Byte `k` of an instruction read as one little-endian number `I` is `I[8k+7:8k]` (R6, R56). -/
def byteOf (I k : Nat) : Byte := BitVec.ofNat 8 (I / 256 ^ k)

/-- The five bytes, the longest instruction's length, of an instruction of `nbits` bits: bits above `nbits` are 0. -/
def tableBytes (nbits w : Nat) : List Byte :=
  let I := w % 2 ^ nbits
  [byteOf I 0, byteOf I 1, byteOf I 2, byteOf I 3, byteOf I 4]

/-- What the decoder reads from an instruction whose bits are `w`, numbered as the opcode table numbers them (R6, R56). -/
def decodeTableWord (nbits w : Nat) : Option Instr :=
  match decode (tableBytes nbits w) 0 with
  | .ok (i, _) => some i
  | .error _ => none

end Sys2Proof
end

