-- ==== Sys2Proof/Machine/Fetch.lean ====
section
/-! DEFINITION. Fetch and decode at the cursor (R100, R102, R103 of 43_fetch_decode_execute.md), and where an instruction
stands to be fetched next. -/

namespace Sys2Proof.Machine

/-- What a decode error raises in the engine: its kind, and the opcode byte or the count of bytes available (R122, R123). -/
def raisedOf : DecodeError → Raised
  | .unknownOpcode op => ⟨.unknownOpcode, op.toNat⟩
  | .truncatedInstruction available => ⟨.truncatedInstruction, available⟩

/-- Fetch and decode together are exactly `Decode(prog, pc)` (R100). -/
def State.fetch (s : State) : Except Raised Instr :=
  match decode s.prog s.pc with
  | .ok (i, _) => .ok i
  | .error e => .error (raisedOf e)

/-- The bytes of an instruction the host gives as a number of `nbits` bits (bits above are 0): as many as its opcode byte
announces, so that the instruction is the whole of them; for an illegal opcode as many as `nbits` says, at least one. -/
def tableInstrBytes (nbits w : Nat) : List Byte :=
  (tableBytes nbits w).take ((opcodeWidth (byteOf (w % 2 ^ nbits) 0)).getD (max 1 ((nbits + 7) / 8)))

/-- The stream with `bytes` standing at offset `at_`, the bytes before and after left as they are; a stream shorter than
`at_` is filled up with zero bytes first (log 29). -/
def placeAt (prog : List Byte) (at_ : Nat) (bytes : List Byte) : List Byte :=
  prog.take at_ ++ List.replicate (at_ - prog.length) 0 ++ bytes ++ prog.drop (at_ + bytes.length)

end Sys2Proof.Machine
end

