-- ==== Sys2Proof/Machine/Step.lean ====
section
/-! DEFINITION. The step function, "the only transition" (R100 of 43_fetch_decode_execute.md). -/

namespace Sys2Proof.Machine

/-- One step (R100). It applies only when the status is `Ready` (R101; log 6): fetch and decode at `pc`, then run the
instruction, or take the fault that fetch raised. -/
def step (s : State) : Host.Outcome State Fault Refusal :=
  match s.status with
  | .ready =>
    match s.fetch with
    | .ok i => exec i s
    | .error e => .next (s.raise e)
  | .halted => .refused .halted
  | .faulted => .refused .faulted

/-- The state with the instruction whose bits are `w` standing where the next step fetches: at `pc` in the program stream,
with the status `Ready` and no fault, as an instance that has been given this program has (R20, R25, R26). It stands for the
program load (log 2, log 29). -/
def State.withFetchWord (s : State) (nbits w : Nat) : State :=
  { s with prog := placeAt s.prog s.pc (tableInstrBytes nbits w), status := .ready, fault := none }

end Sys2Proof.Machine
end

