-- ==== Sys2Proof/Machine/Assembler.lean ====
section
/-! DEFINITION. The assembler's syntax (R72 to R78 of 30_encoding.md) and the disassembler's (R79), over lists of characters.

The line parser is outside the core (R3 of 00_scope.md); the spec records its syntax and its two error kinds, and this file
models just those. Nothing of it touches the engine's state (R131). -/

namespace Sys2Proof.Machine

/-- A whitespace-free run of characters. -/
abbrev Token : Type := List Char

/-- What separates tokens. DESIGN CHOICE (log 24, unsafe): the source says "whitespace" and does not list the characters;
here the blank, the tab and the carriage return, a line having been cut at its line feeds. -/
def isSpace (c : Char) : Bool := c = ' ' || c = '\t' || c = '\r'

/-- A finished token before the rest, if there is one. -/
def flushToken (t : Token) (rest : List Token) : List Token := if t.isEmpty then rest else t :: rest

/-- The tokens of the characters to come, `cur` being the token under way (R72: whitespace-delimited). -/
def tokensFrom (cur : Token) : List Char → List Token
  | [] => flushToken cur []
  | c :: cs => if isSpace c then flushToken cur (tokensFrom [] cs) else tokensFrom (cur ++ [c]) cs

/-- The tokens of a line (R72). -/
def tokens (line : List Char) : List Token := tokensFrom [] line

/-- The value of a decimal digit. -/
def digit (c : Char) : Option Nat := if '0' ≤ c ∧ c ≤ '9' then some (c.toNat - 48) else none

/-- The value of a run of decimal digits read after a number `acc`. -/
def digitsFrom (acc : Nat) : Token → Option Nat
  | [] => some acc
  | c :: cs =>
    match digit c with
    | some d => digitsFrom (10 * acc + d) cs
    | none => none

/-- "a base-10 non-negative integer literal" (R72): one or more decimal digits, no sign, no hexadecimal (U12). Leading zeros
are decimal digits like others: DESIGN CHOICE (log 25, unsafe), the source does not say. -/
def literal : Token → Option Nat
  | [] => none
  | c :: cs => digitsFrom 0 (c :: cs)

/-- The literals of a list of tokens; the first token that is none of them is the error. -/
def literals : List Token → Except Token (List Nat)
  | [] => .ok []
  | t :: ts =>
    match literal t with
    | none => .error t
    | some v =>
      match literals ts with
      | .error e => .error e
      | .ok vs => .ok (v :: vs)

/-- The four mnemonics (R73). -/
inductive Mnemonic where
  | loadConst
  | readMem
  | writeMem
  | binOpLe
  deriving DecidableEq, Repr

/-- The spelling of a mnemonic, upper case only: R73 writes it so, R74 leaves the case open, and refusing any other spelling
is a DESIGN CHOICE of the spec (U12; log 33, unsafe). -/
def Mnemonic.spelling : Mnemonic → Token
  | .loadConst => ['L', 'O', 'A', 'D', '_', 'C', 'O', 'N', 'S', 'T']
  | .readMem => ['R', 'E', 'A', 'D', '_', 'M', 'E', 'M']
  | .writeMem => ['W', 'R', 'I', 'T', 'E', '_', 'M', 'E', 'M']
  | .binOpLe => ['B', 'I', 'N', '_', 'O', 'P', '_', 'L', 'E']

/-- The operand count of a mnemonic (R73). -/
def Mnemonic.arity : Mnemonic → Nat
  | .loadConst => 2
  | .readMem => 2
  | .writeMem => 3
  | .binOpLe => 4

/-- The mnemonic a token spells: "fixed and exhaustive over" the four (R73). -/
def mnemonicOf (t : Token) : Option Mnemonic :=
  if t = Mnemonic.spelling .loadConst then some .loadConst
  else if t = Mnemonic.spelling .readMem then some .readMem
  else if t = Mnemonic.spelling .writeMem then some .writeMem
  else if t = Mnemonic.spelling .binOpLe then some .binOpLe
  else none

/-- The record of a mnemonic and its operands, in the order of the variant's fields (R73); none on any other count. -/
def recordOf : Mnemonic → List Nat → Option Record
  | .loadConst, [dst, value] => some (.loadConst dst value)
  | .readMem, [dst, addr] => some (.readMem dst addr)
  | .writeMem, [base, src, offset] => some (.writeMem base src offset)
  | .binOpLe, [dst, lhs, rhsBase, rhsOffset] => some (.binOpLe dst lhs rhsBase rhsOffset)
  | .loadConst, _ => none
  | .readMem, _ => none
  | .writeMem, _ => none
  | .binOpLe, _ => none

/-- The assembler's errors (R120). -/
inductive AsmError where
  /-- The leading token is no mnemonic (R74). -/
  | unknownMnemonic (name : Token)
  /-- Too few or too many operands after the mnemonic (R75). R120 states no value recorded with it: the mnemonic and the count
  of tokens given that stand beside it are the model's own, a DESIGN CHOICE (log 32, unsafe). -/
  | arityError (mnemonic : Mnemonic) (given : Nat)
  /-- An operand is no base-10 literal. The source names no kind for it (vector A12 of 95_test_vectors.md): DESIGN CHOICE
  (log 26, unsafe) of a name of its own, and of the order: mnemonic, count, literals. -/
  | notALiteral (token : Token)
  /-- The encoder refuses the record (R64, R78). -/
  | operandOverflow (o : OperandOverflow)
  deriving DecidableEq, Repr

/-- One line: none for a blank line (R76), else its record or the line's error (R72 to R75). -/
def parseLine (line : List Char) : Except AsmError (Option Record) :=
  match tokens line with
  | [] => .ok none
  | m :: args =>
    match mnemonicOf m with
    | none => .error (.unknownMnemonic m)
    | some mn =>
      if args.length = mn.arity then
        match literals args with
        | .error t => .error (.notALiteral t)
        | .ok vs => .ok (recordOf mn vs)
      else .error (.arityError mn args.length)

/-- The assembly of the lines from line number `n` on: bytes and trace records in source line order (R66, R77); the first
error aborts the whole pass with no partial output (R74) and is reported with its line. Each line is parsed and encoded
before the next is looked at, so where lines hold different errors, of the parser or of the encoder, the first such line's
is the one reported: DESIGN CHOICE (log 31, unsafe), R74, R75 and R131 do not say which. -/
def assembleFrom (n : Nat) : List (List Char) → Except (Nat × AsmError) (List Byte × List TraceRecord)
  | [] => .ok ([], [])
  | line :: rest =>
    match parseLine line with
    | .error e => .error (n, e)
    | .ok none => assembleFrom (n + 1) rest
    | .ok (some r) =>
      match encodeRecord r with
      | .error o => .error (n, .operandOverflow o)
      | .ok e =>
        match assembleFrom (n + 1) rest with
        | .error err => .error err
        | .ok (bytes, traces) => .ok (e.bytes ++ bytes, e.trace :: traces)

/-- The assembler: lines of text to the binary stream and the trace; lines are counted from 0 (log 26). -/
def assemble (lines : List (List Char)) : Except (Nat × AsmError) (List Byte × List TraceRecord) := assembleFrom 0 lines

/-! ### Disassembly (R79) -/

/-- The character of a decimal digit. -/
def digitChar (d : Nat) : Char := Char.ofNat (48 + d)

/-- The decimal digits of `n`, at most `fuel` of them, in front of `acc`. -/
def decimalFrom : Nat → Nat → Token → Token
  | 0, _, acc => acc
  | fuel + 1, n, acc =>
    if n < 10 then digitChar n :: acc else decimalFrom fuel (n / 10) (digitChar (n % 10) :: acc)

/-- A number in decimal, without leading zeros; `n + 1` digits are always enough. -/
def decimal (n : Nat) : Token := decimalFrom (n + 1) n []

/-- A mnemonic followed by its operands in decimal, separated by single blanks. -/
def printLine (m : Mnemonic) (operands : List Nat) : List Char :=
  m.spelling ++ operands.flatMap fun v => ' ' :: decimal v

/-- The assembler line of an instruction (R79, D16; log 21). -/
def disassemble : Instr → List Char
  | .loadConst dst value => printLine .loadConst [dst.toNat, value.toNat]
  | .readMem dst addr => printLine .readMem [dst.toNat, addr.toNat]
  | .writeMem base src offset => printLine .writeMem [base.toNat, src.toNat, offset.toNat]
  | .binOpLe dst lhs rhsBase rhsOffset => printLine .binOpLe [dst.toNat, lhs.toNat, rhsBase.toNat, rhsOffset.toNat]

end Sys2Proof.Machine
end

