-- ==== Sys2Proof/Machine/Run.lean ====
section
/-! DEFINITION. Running, the end of a run, and the result window (R110 to R113 of 43_fetch_decode_execute.md). -/

namespace Sys2Proof.Machine

/-- At most `n` steps: `step` repeated while it is applicable (R110). -/
def runFor : Nat → State → State
  | 0, s => s
  | n + 1, s =>
    match step s with
    | .next t => runFor n t
    | .fault _ => s
    | .refused _ => s

/-- The number of steps no run exceeds: `PROG_LEN div 4` completed steps and at most one that faults (R109). -/
def stepBound (s : State) : Nat := s.prog.length / Config.lenMin + 1

/-- `run`: `step` repeated while the status is `Ready`, to the end of the run (R110, R111); it cannot be cut short by the
bound (R109). -/
def run (s : State) : State := runFor (stepBound s) s

/-- Why a window read-out is refused (R113). It changes nothing in the machine. -/
inductive WindowRefusal where
  /-- The status is not `Halted`. R113 names no kind for it: the name and the status it carries are the
  model's own (log 19). -/
  | notAvailable (status : Status)
  /-- The bounds do not satisfy `start <= end <= MEM_SIZE` (D11); that the refusal carries them is the model's
  own (log 19). -/
  | outOfRange (start finish : Nat)
  deriving DecidableEq, Repr

/-- `window(start, end)`: in a `Halted` state the ordered sequence of the cell values `memory[start] .. memory[end-1]`
(R112), refused outside the conditions of R113. -/
def window (s : State) (start finish : Nat) : Except WindowRefusal (List Cell) :=
  match s.status with
  | .halted =>
    if start ≤ finish ∧ finish ≤ Config.memSize then
      .ok ((List.range (finish - start)).map fun k => Memory.read s.memory (start + k))
    else .error (.outOfRange start finish)
  | .ready => .error (.notAvailable .ready)
  | .faulted => .error (.notAvailable .faulted)

end Sys2Proof.Machine
end

