-- ==== Sys2Proof/Safety.lean ====
section
/-! DEFINITION. What counts as a completed run, the invariant of the states a run reaches, and the terms statements use. -/

namespace Sys2Proof.Machine

/-- The data addresses an instruction accesses in a state, in the order it accesses them (R35 of 20_memory.md). -/
def dataAddresses (s : State) : Instr → List Nat
  | .loadConst _ _ => []
  | .readMem _ addr => [absolute addr]
  | .writeMem base _ offset => [s.basePlusOffset base offset]
  | .binOpLe dst _ rhsBase rhsOffset => [s.basePlusOffset rhsBase rhsOffset, s.indirect dst]

/-- The address an instruction stores to, none where it stores nothing (R30, R35): the operand forms of Machine/Operands.lean
applied to the state the instruction begins in, as its meaning applies them. -/
def storedAddress (s : State) : Instr → Option Nat
  | .loadConst _ _ => none
  | .readMem _ _ => none
  | .writeMem base _ offset => some (s.basePlusOffset base offset)
  | .binOpLe dst _ _ _ => some (s.indirect dst)

/-- The register an instruction writes (R11). -/
def writtenRegister : Instr → Option Byte
  | .loadConst dst _ => some dst
  | .readMem dst _ => some dst
  | .writeMem _ _ _ => none
  | .binOpLe _ _ _ _ => none

/-- The registers an instruction reads (R11). -/
def readRegisters : Instr → List Byte
  | .loadConst _ _ => []
  | .readMem _ _ => []
  | .writeMem base src _ => [base, src]
  | .binOpLe dst lhs rhsBase _ => [dst, lhs, rhsBase]

/-- How many bytes at `pc` a step looks at: as many as the opcode byte announces, that byte alone if it is illegal, none where
the stream has ended (R102, R103). -/
def fetchLength (s : State) : Nat :=
  match s.prog[s.pc]? with
  | some op => (opcodeWidth op).getD 1
  | none => 0

/-- Whether an opcode byte is one of the four (R55, R59). -/
def legalOpcode (op : Byte) : Bool := (opcodeWidth op).isSome

/-- A fault record tells the truth about the state it stands in: it names `pc`, and the condition of its kind holds there with
its `info`, the registers and memory being those the faulting step began with (R21, R122 to R124, R127, R128). -/
def faultJustified (s : State) (r : FaultRecord) : Prop :=
  r.faultPc = s.pc ∧
    match r.kind with
    | .unknownOpcode => ∃ op, s.prog[s.pc]? = some op ∧ legalOpcode op = false ∧ r.info = op.toNat
    | .truncatedInstruction =>
      ∃ op n, s.prog[s.pc]? = some op ∧ opcodeWidth op = some n ∧ s.prog.length < s.pc + n ∧
        r.info = s.prog.length - s.pc
    | .outOfRange =>
      ∃ i n, decode s.prog s.pc = .ok (i, n) ∧ r.info ∈ dataAddresses s i ∧ Config.memSize ≤ r.info

/-- The invariant of every state a run from `State.init` reaches. -/
structure State.Inv (s : State) : Prop where
  /-- The memory is in canonical form and lists no address outside 0..1023 (R13, log 9). -/
  memory_wf : Memory.wf s.memory = true
  /-- The cursor never passes the end of the stream (R15, R17, R106). -/
  pc_le : s.pc ≤ s.prog.length
  /-- `status` is R20's function of `fault`, `pc` and `PROG_LEN`. -/
  status_eq : s.status = s.statusOf
  /-- A recorded fault is precise (R21, R127, R128). -/
  fault_ok : ∀ r, s.fault = some r → faultJustified s r

/-- The run completed: what a claim about a program's result takes as its premise (R111, R129). -/
def State.completed (s : State) : Prop := s.status = .halted

/-- The states a run reaches from a state, by steps that answer a next state (R110). -/
inductive Reaches : State → State → Prop where
  | refl (s : State) : Reaches s s
  | step {s t u : State} : Reaches s t → Machine.step t = .next u → Reaches s u

/-- Executing a list of instructions one after the other, each once and in order, stopping at the first that faults: what a
run over their encoding is to do (R42, R109). No instruction is fetched here. -/
def execAll : List Instr → State → State
  | [], s => s
  | i :: is, s =>
    match exec i s with
    | .next t => if t.status = .faulted then t else execAll is t
    | .fault _ => s
    | .refused _ => s

/-- The byte stream of a list of instructions (R66). -/
def streamOf (is : List Instr) : List Byte := is.flatMap encode

/-- Registers, memory and `pc` are those of `s`, and so is the stream: what a fault leaves (R127). -/
def sameButFault (s t : State) : Prop :=
  t.registers = s.registers ∧ t.memory = s.memory ∧ t.pc = s.pc ∧ t.prog = s.prog

/-- `t` is `s` after the fault `(kind, info)`: the record names `pc`, the status is `Faulted`, the rest is as it was (R127). -/
def faultedWith (s t : State) (kind : Fault) (info : Nat) : Prop :=
  t.fault = some ⟨kind, s.pc, info⟩ ∧ t.status = .faulted ∧ sameButFault s t

/-- `t` is what follows `s` when an instruction of `n` bytes completes, registers and memory left open: `pc` advanced, the
status by R106, fault record and stream as they were (R16, R106, R21, R46). -/
def completedBy (s t : State) (n : Nat) : Prop :=
  t.pc = s.pc + n ∧ t.status = (if s.pc + n = s.prog.length then .halted else .ready) ∧ t.fault = s.fault ∧ t.prog = s.prog

/-- Every register reads as before. -/
def registersKept (s t : State) : Prop := ∀ j, t.reg j = s.reg j

/-- Every register but `d` reads as before. -/
def registersKeptBut (s t : State) (d : Byte) : Prop := ∀ j, j ≠ d → t.reg j = s.reg j

/-- Every data-memory cell reads as before. -/
def memoryKept (s t : State) : Prop := ∀ b, Memory.read t.memory b = Memory.read s.memory b

/-- Every data-memory cell but `a` reads as before. -/
def memoryKeptBut (s t : State) (a : Nat) : Prop := ∀ b, b ≠ a → Memory.read t.memory b = Memory.read s.memory b

/-- None of the instructions, executed one after the other from `s`, stores to cell `a`. -/
def noStoreTo (a : Nat) : List Instr → State → Prop
  | [], _ => True
  | i :: is, s => storedAddress s i ≠ some a ∧ ∀ t, exec i s = .next t → noStoreTo a is t

end Sys2Proof.Machine
end

