-- ==== Sys2Proof/Certificates/Slice0/Obligations.lean ====
section
/-! DEFINITION. The statements for the provers, from the numbered rules of spec/. Opcode bytes, lengths and sizes are written
as the rules write them, not through `Config`. -/

open Sys2Proof Sys2Proof.Machine

/-! ### Reset -/

/-- R26: the value of every piece of state after reset, for an instance given the stream `prog`; the first instruction
executed is the one at `prog[0]`. That reset is creation, and that the empty stream is `Halted` at once, are the spec's
own choices (D17, D7). -/
def Obligations.ResetGivesEveryPieceOfStateItsValue : Prop :=
  ∀ prog : List Byte,
    (∀ i, (State.init prog).reg i = 0) ∧
    (∀ a, Memory.read (State.init prog).memory a = 0) ∧
    (State.init prog).pc = 0 ∧ (State.init prog).fault = none ∧ (State.init prog).prog = prog ∧
    (0 < prog.length → (State.init prog).status = .ready) ∧
    (prog.length = 0 → (State.init prog).status = .halted) ∧
    ∀ i n, decode prog 0 = .ok (i, n) → step (State.init prog) = exec i (State.init prog)

/-- R150, R151: reset of an instance, in whatever state (`Halted` and `Faulted` among them), zeroes registers and
memory, puts `pc` to 0 and the fault record to none, and does not touch the stream (what reset touches is the spec's own
choice, D17). -/
def Obligations.ResetOfAnInstanceDiscardsAllButTheStream : Prop :=
  ∀ s : State,
    (∀ i, s.restart.reg i = 0) ∧ (∀ a, Memory.read s.restart.memory a = 0) ∧
    s.restart.pc = 0 ∧ s.restart.fault = none ∧ s.restart.prog = s.prog ∧
    (0 < s.prog.length → s.restart.status = .ready) ∧ (s.prog.length = 0 → s.restart.status = .halted)

/-! ### The four instructions: encoding, result, frame, fault -/

/-- R81: LOAD_CONST, for every operand and state. It completes always: nothing in it can fault. -/
def Obligations.LoadConstWritesItsConstant : Prop :=
  ∀ (dst : Byte) (value : Half) (s : State),
    encode (.loadConst dst value) =
      [192, dst, BitVec.ofNat 8 (value.toNat % 256), BitVec.ofNat 8 (value.toNat / 256)] ∧
    ∃ t, exec (.loadConst dst value) s = .next t ∧
      (t.reg dst).toNat = value.toNat ∧ registersKeptBut s t dst ∧ memoryKept s t ∧ completedBy s t 4

/-- R86: READ_MEM completes for every address below 1024, and takes `OutOfRange(addr)` for every other. -/
def Obligations.ReadMemLoadsTheAddressedCell : Prop :=
  ∀ (dst : Byte) (addr : Half) (s : State),
    encode (.readMem dst addr) =
      [247, dst, BitVec.ofNat 8 (addr.toNat % 256), BitVec.ofNat 8 (addr.toNat / 256)] ∧
    (addr.toNat < 1024 →
      ∃ t, exec (.readMem dst addr) s = .next t ∧
        t.reg dst = Memory.read s.memory addr.toNat ∧ registersKeptBut s t dst ∧ memoryKept s t ∧ completedBy s t 4) ∧
    (1024 ≤ addr.toNat →
      ∃ t, exec (.readMem dst addr) s = .next t ∧ faultedWith s t .outOfRange addr.toNat)

/-- R88: WRITE_MEM completes when the exact sum of base register and offset is below 1024, and takes `OutOfRange` of
that sum otherwise; `base = src` is no special case. -/
def Obligations.WriteMemStoresAtBasePlusOffset : Prop :=
  ∀ (base src offset : Byte) (s : State),
    encode (.writeMem base src offset) = [115, base, src, offset] ∧
    s.basePlusOffset base offset = (s.reg base).toNat + offset.toNat ∧
    (s.basePlusOffset base offset < 1024 →
      ∃ t, exec (.writeMem base src offset) s = .next t ∧
        Memory.read t.memory (s.basePlusOffset base offset) = s.reg src ∧
        memoryKeptBut s t (s.basePlusOffset base offset) ∧ registersKept s t ∧ completedBy s t 4) ∧
    (1024 ≤ s.basePlusOffset base offset →
      ∃ t, exec (.writeMem base src offset) s = .next t ∧
        faultedWith s t .outOfRange (s.basePlusOffset base offset))

/-- R93, R95, R96: BIN_OP_LE completes when both addresses are below 1024: the cell the destination register points to
holds 1 or 0 by the unsigned comparison with the right operand's content BEFORE the instruction (whether or not it is
the same cell), and no register is written. Otherwise it takes `OutOfRange` of the read address first, else of the write
address. Three points are the spec's own choices: that order, when both are out of range (D9; log 13), the old content
where the two cells are one (D21; log 16), and the unsigned comparison (D22; log 17). -/
def Obligations.BinOpLeStoresTheComparison : Prop :=
  ∀ (dst lhs rhsBase rhsOffset : Byte) (s : State),
    encode (.binOpLe dst lhs rhsBase rhsOffset) = [83, dst, lhs, rhsBase, rhsOffset] ∧
    s.basePlusOffset rhsBase rhsOffset = (s.reg rhsBase).toNat + rhsOffset.toNat ∧
    s.indirect dst = (s.reg dst).toNat ∧
    (s.basePlusOffset rhsBase rhsOffset < 1024 → s.indirect dst < 1024 →
      ∃ t, exec (.binOpLe dst lhs rhsBase rhsOffset) s = .next t ∧
        (Memory.read t.memory (s.indirect dst)).toNat =
          (if (s.reg lhs).toNat ≤ (Memory.read s.memory (s.basePlusOffset rhsBase rhsOffset)).toNat then 1 else 0) ∧
        memoryKeptBut s t (s.indirect dst) ∧ registersKept s t ∧ completedBy s t 5) ∧
    (1024 ≤ s.basePlusOffset rhsBase rhsOffset →
      ∃ t, exec (.binOpLe dst lhs rhsBase rhsOffset) s = .next t ∧
        faultedWith s t .outOfRange (s.basePlusOffset rhsBase rhsOffset)) ∧
    (s.basePlusOffset rhsBase rhsOffset < 1024 → 1024 ≤ s.indirect dst →
      ∃ t, exec (.binOpLe dst lhs rhsBase rhsOffset) s = .next t ∧ faultedWith s t .outOfRange (s.indirect dst))

/-- R94's operation: 1 when `a <= b` as unsigned integers, else 0, a full cell either way (unsigned by the spec's choice
D22; log 17). -/
def Obligations.AluComparesUnsigned : Prop :=
  ∀ a b : Cell,
    (a.toNat ≤ b.toNat → (aluLe a b).toNat = 1) ∧ (b.toNat < a.toNat → (aluLe a b).toNat = 0)

/-- R89: the effective address is the exact sum, at most 65790, reduced modulo nothing; it is in range exactly when the
register is at most `1023 - offset`, and the check raises `OutOfRange` of it otherwise (the spec's own choice of an
exact sum, D2; log 18). -/
def Obligations.EffectiveAddressIsTheExactSum : Prop :=
  ∀ (s : State) (base offset : Byte),
    s.basePlusOffset base offset = (s.reg base).toNat + offset.toNat ∧
    s.basePlusOffset base offset ≤ 65790 ∧
    (s.basePlusOffset base offset < 1024 ↔ (s.reg base).toNat ≤ 1023 - offset.toNat) ∧
    (s.basePlusOffset base offset < 1024 → memCheck (s.basePlusOffset base offset) = .ok ()) ∧
    (1024 ≤ s.basePlusOffset base offset →
      memCheck (s.basePlusOffset base offset) = .error ⟨.outOfRange, s.basePlusOffset base offset⟩)

/-! ### Rules over all four instructions -/

/-- R16: an instruction that completes advances `pc` by its width, 4 or 5; one that faults leaves it; no other way. -/
def Obligations.CursorAdvancesByTheWidthOrStays : Prop :=
  ∀ (i : Instr) (s : State), ∃ t, exec i s = .next t ∧
    (t.status = .faulted → t.pc = s.pc) ∧
    (t.status ≠ .faulted → t.pc = s.pc + match i with
      | .loadConst _ _ => 4
      | .readMem _ _ => 4
      | .writeMem _ _ _ => 4
      | .binOpLe _ _ _ _ => 5)

/-- R124: an instruction faults exactly when it accesses a data address of 1024 or more, then with `OutOfRange` of such an
address, at `pc`; LOAD_CONST, which accesses none, never does. -/
def Obligations.OutOfRangeExactlyOnAddressesOf1024OrMore : Prop :=
  ∀ (i : Instr) (s : State), ∃ t, exec i s = .next t ∧
    (t.status = .faulted ↔ ∃ a ∈ dataAddresses s i, 1024 ≤ a) ∧
    (t.status = .faulted →
      ∃ a ∈ dataAddresses s i, 1024 ≤ a ∧ t.fault = some ⟨.outOfRange, s.pc, a⟩) ∧
    (t.status ≠ .faulted → t.fault = s.fault)

/-- R11 (inferred by the spec from R10 and R54): an instruction writes no register but the one the table names, and
reads no register but those it names: changing any other register before the instruction changes nothing after it but
that register. -/
def Obligations.RegistersReadAndWrittenAreThoseOfTheTable : Prop :=
  ∀ (i : Instr) (s : State), ∃ t, exec i s = .next t ∧
    (∀ j, writtenRegister i ≠ some j → t.reg j = s.reg j) ∧
    ∀ (r : Byte) (v : Cell), r ∉ readRegisters i →
      ∃ u, exec i (s.setReg r v) = .next u ∧
        u.memory = t.memory ∧ u.pc = t.pc ∧ u.status = t.status ∧ u.fault = t.fault ∧ u.prog = t.prog ∧
        ∀ j, j ≠ r → u.reg j = t.reg j

/-- R30, R37: whatever its outcome, an instruction changes no data-memory cell but the one it stores to, whose address is
computed from the state it begins in. -/
def Obligations.OnlyTheStoredCellChanges : Prop :=
  ∀ (i : Instr) (s : State), ∃ t, exec i s = .next t ∧
    ∀ a, storedAddress s i ≠ some a → Memory.read t.memory a = Memory.read s.memory a

/-- R90 (inferred by the spec from R37, R42, R86, R88): after a WRITE_MEM that stored at cell `a`, and any instructions
none of which stores to `a` and none of which faults, a READ_MEM of `a` gives the stored value. -/
def Obligations.StoreThenLoadGivesTheStoredValue : Prop :=
  ∀ (base src offset dst : Byte) (addr : Half) (between : List Instr) (s t : State),
    addr.toNat < 1024 → s.basePlusOffset base offset = addr.toNat →
    exec (.writeMem base src offset) s = .next t →
    noStoreTo addr.toNat between t → (execAll between t).status ≠ .faulted →
    ∃ u, exec (.readMem dst addr) (execAll between t) = .next u ∧ u.reg dst = s.reg src

/-! ### The step function -/

/-- R100: in a `Ready` state whose bytes at `pc` decode to an instruction, a step is that instruction's meaning; the
number of bytes decoded is the instruction's width, by which a completed step has moved `pc`. -/
def Obligations.StepRunsTheDecodedInstruction : Prop :=
  ∀ (s : State) (i : Instr) (n : Nat), s.status = .ready → decode s.prog s.pc = .ok (i, n) →
    n = i.width ∧ step s = exec i s ∧
    ∀ t, step s = .next t → t.status ≠ .faulted → t.pc = s.pc + n

/-- R122: an opcode byte that is none of the four values, whatever follows it. -/
def Obligations.IllegalOpcodeTakesUnknownOpcode : Prop :=
  ∀ (s : State) (op : Byte), s.status = .ready → s.prog[s.pc]? = some op →
    op ≠ 192 → op ≠ 247 → op ≠ 115 → op ≠ 83 →
    ∃ t, step s = .next t ∧ faultedWith s t .unknownOpcode op.toNat

/-- R123: a legal opcode byte with too few bytes after it; the info is the count of bytes present. The fault
and its name are the spec's own choice (D5; log 12). -/
def Obligations.ShortInstructionTakesTruncatedInstruction : Prop :=
  ∀ (s : State) (op : Byte) (n : Nat), s.status = .ready → s.prog[s.pc]? = some op →
    ((op = 192 ∨ op = 247 ∨ op = 115) ∧ n = 4 ∨ op = 83 ∧ n = 5) → s.prog.length < s.pc + n →
    (1 ≤ s.prog.length - s.pc ∧ s.prog.length - s.pc < n) ∧
    ∃ t, step s = .next t ∧ faultedWith s t .truncatedInstruction (s.prog.length - s.pc)

/-- R126: the fault one step reports when several conditions hold. That a read address comes before a write address is the
spec's own choice (D9; log 13). -/
def Obligations.FaultPriorityOfOneStep : Prop :=
  ∀ (s : State) (op : Byte), s.status = .ready → s.prog[s.pc]? = some op →
    (legalOpcode op = false → ∃ t, step s = .next t ∧ faultedWith s t .unknownOpcode op.toNat) ∧
    (∀ n, opcodeWidth op = some n → s.prog.length < s.pc + n →
      ∃ t, step s = .next t ∧ faultedWith s t .truncatedInstruction (s.prog.length - s.pc)) ∧
    (∀ dst addr n, decode s.prog s.pc = .ok (.readMem dst addr, n) → 1024 ≤ addr.toNat →
      ∃ t, step s = .next t ∧ faultedWith s t .outOfRange addr.toNat) ∧
    (∀ base src offset n, decode s.prog s.pc = .ok (.writeMem base src offset, n) →
      1024 ≤ s.basePlusOffset base offset →
      ∃ t, step s = .next t ∧ faultedWith s t .outOfRange (s.basePlusOffset base offset)) ∧
    (∀ dst lhs rhsBase rhsOffset n, decode s.prog s.pc = .ok (.binOpLe dst lhs rhsBase rhsOffset, n) →
      (1024 ≤ s.basePlusOffset rhsBase rhsOffset →
        ∃ t, step s = .next t ∧ faultedWith s t .outOfRange (s.basePlusOffset rhsBase rhsOffset)) ∧
      (s.basePlusOffset rhsBase rhsOffset < 1024 → 1024 ≤ s.indirect dst →
        ∃ t, step s = .next t ∧ faultedWith s t .outOfRange (s.indirect dst)))

/-- R101: a step applies when the status is `Ready`; otherwise there is no next state, and it is not a fault (the spec's
own extension of "inapplicable" to `Faulted`, D6; log 6). -/
def Obligations.StepAppliesOnlyWhenReady : Prop :=
  ∀ s : State,
    (s.status = .ready → ∃ t, step s = .next t) ∧
    (s.status ≠ .ready → (∀ t, step s ≠ .next t) ∧ ∀ r, step s ≠ .fault r)

/-- R105, R107: a step from a `Ready` state either completes the instruction at `pc` or takes one fault with nothing
written (that a fault has no partial effect is the spec's own choice, D10; log 14). -/
def Obligations.StepCompletesOrFaultsWhole : Prop :=
  ∀ s : State, s.status = .ready →
    ∃ t, step s = .next t ∧
      ((t.status ≠ .faulted ∧ ∃ i n, decode s.prog s.pc = .ok (i, n) ∧ completedBy s t n ∧
          (∀ j, writtenRegister i ≠ some j → t.reg j = s.reg j) ∧
          ∀ a, storedAddress s i ≠ some a → Memory.read t.memory a = Memory.read s.memory a) ∨
        ∃ kind info, faultedWith s t kind info)

/-- R127: taking a fault, from any state. What the record holds and that the arrays stay are the spec's own choices (D6,
D8, D10; log 14, 15). -/
def Obligations.TakingAFaultRecordsItAndChangesNothingElse : Prop :=
  ∀ (s : State) (e : Raised), faultedWith s (s.raise e) e.kind e.info

/-- R130: `Faulted` is terminal and sticky: no steps lead out of it and the record stays; reset leaves it (the
spec's own choice, D6, D19). -/
def Obligations.FaultedIsLeftOnlyByReset : Prop :=
  ∀ s t : State, s.status = .faulted →
    (Reaches s t → t = s) ∧ s.restart.status ≠ .faulted ∧ s.restart.fault = none

/-- R46 (inferred by the spec from R18 and R30): no instruction and no step writes the program store. -/
def Obligations.TheProgramStreamIsNeverWritten : Prop :=
  (∀ (i : Instr) (s t : State), exec i s = .next t → t.prog = s.prog) ∧
  ∀ s t : State, Reaches s t → t.prog = s.prog

/-- R102, R103: a step looks at no byte of the stream but the opcode byte and, if it is legal, the operand bytes it
announces: any stream of the same length that agrees on those bytes gives the same step. -/
def Obligations.StepReadsOnlyTheBytesOfItsInstruction : Prop :=
  ∀ (s t : State) (prog' : List Byte), prog'.length = s.prog.length →
    (∀ k, s.pc ≤ k → k < s.pc + fetchLength s → prog'[k]? = s.prog[k]?) →
    step s = .next t → step { s with prog := prog' } = .next { t with prog := prog' }

/-! ### Invariants -/

/-- The invariant of Safety.lean holds right after reset, whatever stream is loaded; the machine right after reset with
nothing loaded is the empty stream's (the model's own choice, log 2). -/
def Obligations.ResetSatisfiesTheInvariant : Prop :=
  State.reset = State.init [] ∧ State.reset.Inv ∧ ∀ prog : List Byte, (State.init prog).Inv

/-- From every state that meets the invariant, a step gives one that meets it: memory in canonical form within 0..1023,
`pc` at most `PROG_LEN`, `status` R20's function, a recorded fault true of the state (R13, R15, R20, R21, R127, R128).
-/
def Obligations.StepKeepsTheInvariant : Prop :=
  ∀ s t : State, s.Inv → step s = .next t → t.Inv

/-- R106: a step reaches `Halted`, the completed end of a run (R129), exactly when it leaves no fault and `pc` at the
end of the stream, and `Ready` exactly when it leaves no fault and `pc` before it; `pc` cannot step over the end. -/
def Obligations.HaltedExactlyAtTheEndOfTheStream : Prop :=
  ∀ s t : State, s.Inv → step s = .next t →
    t.pc ≤ t.prog.length ∧
    (t.completed ↔ t.fault = none ∧ t.pc = t.prog.length) ∧
    (t.status = .ready ↔ t.fault = none ∧ t.pc < t.prog.length)

/-- R80 (inferred by the spec from R14 and R26): let `P` hold of 0, of 1 and of every LOAD_CONST immediate that stands
anywhere in the stream. Then a step keeps "`P` holds of every register and every cell": no other value enters the
machine. -/
def Obligations.EveryValueEnteredThroughALoadConst : Prop :=
  ∀ (P : Cell → Prop) (s t : State), P 0 → P 1 →
    (∀ off dst value n, decode s.prog off = .ok (.loadConst dst value, n) → P (zextW value)) →
    (∀ j, P (s.reg j)) → (∀ a, P (Memory.read s.memory a)) → step s = .next t →
    (∀ j, P (t.reg j)) ∧ ∀ a, P (Memory.read t.memory a)

/-- Two memories in canonical form that read alike at every address are equal data (log 9: the form is the model's own).
-/
def Obligations.CanonicalMemoriesThatReadAlikeAreEqual : Prop :=
  ∀ m k : Memory, Memory.wf m = true → Memory.wf k = true → (∀ a, Memory.read m a = Memory.read k a) → m = k

/-! ### Runs -/

/-- R110: from every state that meets the invariant, `run` ends, in `Halted` or in `Faulted`, at a state that steps
reach. -/
def Obligations.EveryRunEnds : Prop :=
  ∀ s : State, s.Inv → Reaches s (run s) ∧ ((run s).status = .halted ∨ (run s).status = .faulted)

/-- R109 (inferred by the spec from R16, R100, R106): each completed step raises `pc` by at least 4 and keeps it at most
`PROG_LEN`; and a run from reset that halts has executed exactly the instructions that cut the whole stream from offset
0, each once and in order, at most `PROG_LEN div 4`; and every run from reset is over after `PROG_LEN div 4` steps and
one more. -/
def Obligations.HaltedRunExecutesExactlyTheCutOfTheStream : Prop :=
  (∀ s t : State, s.Inv → step s = .next t → t.status ≠ .faulted → s.pc + 4 ≤ t.pc ∧ t.pc ≤ s.prog.length) ∧
  ∀ prog : List Byte,
    ((run (State.init prog)).status = .halted →
      ∃ is : List Instr, prog = streamOf is ∧ run (State.init prog) = execAll is (State.init prog) ∧
        is.length ≤ prog.length / 4) ∧
    (runFor (prog.length / 4 + 1) (State.init prog)).status ≠ .ready

/-- R42, R108: a run over the encoding of a list of instructions that stands at `pc` and ends the stream is those
instructions' meanings applied one after the other, to the first that faults or to the end; fetching and decoding add
nothing. -/
def Obligations.RunOverAnEncodingIsItsInstructionsInOrder : Prop :=
  ∀ (is : List Instr) (s : State) (before : List Byte),
    s.prog = before ++ streamOf is → s.pc = before.length →
    s.status = (if is = [] then .halted else .ready) →
    run s = execAll is s

/-- R82 (inferred by the spec from R42 and R81): a program of LOAD_CONST instructions only always halts without a fault
and with memory all 0; each register holds the value of the last LOAD_CONST that names it, 0 where none does. -/
def Obligations.LoadConstProgramsHaltWithMemoryZero : Prop :=
  ∀ l : List (Byte × Half),
    let t := run (State.init (streamOf (l.map fun p => .loadConst p.1 p.2)))
    t.status = .halted ∧ t.fault = none ∧ (∀ a, Memory.read t.memory a = 0) ∧
    ∀ d, (t.reg d).toNat = ((l.reverse.find? fun p => p.1 = d).map fun p => p.2.toNat).getD 0

/-- R116 (inferred by the spec from R26, R81, R86, R88, R93): single-instruction programs from reset. -/
def Obligations.SingleInstructionProgramsFromReset : Prop :=
  (∀ (dst : Byte) (value : Half),
    let t := run (State.init (encode (.loadConst dst value)))
    t.status = .halted ∧ t.pc = 4 ∧ (t.reg dst).toNat = value.toNat ∧ (∀ j, j ≠ dst → t.reg j = 0) ∧
      ∀ a, Memory.read t.memory a = 0) ∧
  (∀ (dst : Byte) (addr : Half), addr.toNat ≤ 1023 →
    let t := run (State.init (encode (.readMem dst addr)))
    t.status = .halted ∧ t.pc = 4 ∧ (∀ j, t.reg j = 0) ∧ ∀ a, Memory.read t.memory a = 0) ∧
  (∀ base src offset : Byte,
    let t := run (State.init (encode (.writeMem base src offset)))
    t.status = .halted ∧ t.pc = 4 ∧ (∀ j, t.reg j = 0) ∧ ∀ a, Memory.read t.memory a = 0) ∧
  ∀ dst lhs rhsBase rhsOffset : Byte,
    let t := run (State.init (encode (.binOpLe dst lhs rhsBase rhsOffset)))
    t.status = .halted ∧ t.pc = 5 ∧ (∀ j, t.reg j = 0) ∧ Memory.read t.memory 0 = 1 ∧
      ∀ a, a ≠ 0 → Memory.read t.memory a = 0

/-! ### The result window -/

/-- R112: in a `Halted` state the window is the ordered sequence of the cells from `start` to before `end` (that it is
the only output is the spec's own choice, D20). -/
def Obligations.WindowIsTheOrderedRangeOfCells : Prop :=
  ∀ (s : State) (start finish : Nat), s.status = .halted → start ≤ finish → finish ≤ 1024 →
    ∃ l, window s start finish = .ok l ∧ l.length = finish - start ∧
      ∀ k, k < finish - start → l[k]? = some (Memory.read s.memory (start + k))

/-- R113: the window is refused when the status is not `Halted` and, in `Halted`, when the bounds are outside `start <=
end <= 1024` (that a bad bound is refused, not clamped, is the spec's choice, D11; log 19); equal bounds give the empty
sequence. -/
def Obligations.WindowIsRefusedOutsideItsConditions : Prop :=
  ∀ (s : State) (start finish : Nat),
    (s.status ≠ .halted → window s start finish = .error (.notAvailable s.status)) ∧
    (s.status = .halted → (finish < start ∨ 1024 < finish) →
      window s start finish = .error (.outOfRange start finish)) ∧
    (s.status = .halted → start ≤ 1024 → window s start start = .ok [])

/-! ### Encoding and decoding -/

/-- R70: decoding an encoded instruction, wherever it stands in a stream, gives it back with its width; and conversely
whatever decodes is the encoding of what it decodes to (the converse is inferred by the spec from R54, R65 and R68; the
source does not state it). -/
def Obligations.DecodeAndEncodeAreInverse : Prop :=
  (∀ (i : Instr) (before after : List Byte),
    decode (before ++ encode i ++ after) before.length = .ok (i, i.width)) ∧
  ∀ (bytes : List Byte) (off : Nat) (i : Instr) (n : Nat), decode bytes off = .ok (i, n) →
    n = i.width ∧ off + n ≤ bytes.length ∧ (bytes.drop off).take n = encode i

/-- Words written out from the layouts of R51 to R53 (vectors E5, E10, E14, E17 of 95_test_vectors.md). -/
def Obligations.WordsOfTheLayoutTableDecode : Prop :=
  decode [0xC0, 0x07, 0x34, 0x12] 0 = .ok (.loadConst 7 4660, 4) ∧
  decode [0xF7, 0x0C, 0xFF, 0x03] 0 = .ok (.readMem 12 1023, 4) ∧
  decode [0x73, 0x02, 0x03, 0x02] 0 = .ok (.writeMem 2 3 2, 4) ∧
  decode [0x53, 0x05, 0x01, 0x06, 0x02] 0 = .ok (.binOpLe 5 1 6 2, 5)

/-- R68: the decoder on any bytes and offset, by index into the bytes (the truncated cases are the spec's own choice, D5;
log 12). -/
def Obligations.DecoderFollowsItsCaseTable : Prop :=
  ∀ (bytes : List Byte) (off : Nat),
    (bytes.length ≤ off → decode bytes off = .error (.truncatedInstruction 0)) ∧
    ∀ op, bytes[off]? = some op →
      (op ≠ 192 → op ≠ 247 → op ≠ 115 → op ≠ 83 → decode bytes off = .error (.unknownOpcode op)) ∧
      ((op = 192 ∨ op = 247 ∨ op = 115) → bytes.length < off + 4 →
        decode bytes off = .error (.truncatedInstruction (bytes.length - off))) ∧
      (op = 83 → bytes.length < off + 5 →
        decode bytes off = .error (.truncatedInstruction (bytes.length - off))) ∧
      ∀ b1 b2 b3, bytes[off + 1]? = some b1 → bytes[off + 2]? = some b2 → bytes[off + 3]? = some b3 →
        (op = 192 → decode bytes off = .ok (.loadConst b1 (BitVec.ofNat 16 (b2.toNat + 256 * b3.toNat)), 4)) ∧
        (op = 247 → decode bytes off = .ok (.readMem b1 (BitVec.ofNat 16 (b2.toNat + 256 * b3.toNat)), 4)) ∧
        (op = 115 → decode bytes off = .ok (.writeMem b1 b2 b3, 4)) ∧
        ∀ b4, bytes[off + 4]? = some b4 → op = 83 → decode bytes off = .ok (.binOpLe b1 b2 b3 b4, 5)

/-- R64: the encoder refuses a record exactly when an operand exceeds its field, naming the first one in operand order
(which one is named is the spec's own choice, D12; log 20); an address is not compared with `MEM_SIZE`. -/
def Obligations.EncoderRefusesTheFirstOperandThatDoesNotFit : Prop :=
  (∀ r : Record, (∃ e, encodeRecord r = .ok e) ↔ r.wf = true) ∧
  (∀ dst value : Nat,
    (255 < dst → encodeRecord (.loadConst dst value) = .error ⟨.dst, dst⟩) ∧
    (dst ≤ 255 → 65535 < value → encodeRecord (.loadConst dst value) = .error ⟨.value, value⟩)) ∧
  (∀ dst addr : Nat,
    (255 < dst → encodeRecord (.readMem dst addr) = .error ⟨.dst, dst⟩) ∧
    (dst ≤ 255 → 65535 < addr → encodeRecord (.readMem dst addr) = .error ⟨.addr, addr⟩)) ∧
  (∀ base src offset : Nat,
    (255 < base → encodeRecord (.writeMem base src offset) = .error ⟨.base, base⟩) ∧
    (base ≤ 255 → 255 < src → encodeRecord (.writeMem base src offset) = .error ⟨.src, src⟩) ∧
    (base ≤ 255 → src ≤ 255 → 255 < offset →
      encodeRecord (.writeMem base src offset) = .error ⟨.offset, offset⟩)) ∧
  ∀ dst lhs rhsBase rhsOffset : Nat,
    (255 < dst → encodeRecord (.binOpLe dst lhs rhsBase rhsOffset) = .error ⟨.dst, dst⟩) ∧
    (dst ≤ 255 → 255 < lhs → encodeRecord (.binOpLe dst lhs rhsBase rhsOffset) = .error ⟨.lhs, lhs⟩) ∧
    (dst ≤ 255 → lhs ≤ 255 → 255 < rhsBase →
      encodeRecord (.binOpLe dst lhs rhsBase rhsOffset) = .error ⟨.rhsBase, rhsBase⟩) ∧
    (dst ≤ 255 → lhs ≤ 255 → rhsBase ≤ 255 → 255 < rhsOffset →
      encodeRecord (.binOpLe dst lhs rhsBase rhsOffset) = .error ⟨.rhsOffset, rhsOffset⟩)

/-- R63, R65: bytes and width of every record whose operands fit. -/
def Obligations.EncoderGivesExactlyTheBytesOfTheLayout : Prop :=
  (∀ dst value : Nat, dst ≤ 255 → value ≤ 65535 →
    ∃ e, encodeRecord (.loadConst dst value) = .ok e ∧
      e.bytes.map BitVec.toNat = [192, dst, value % 256, value / 256] ∧ e.width = 4) ∧
  (∀ dst addr : Nat, dst ≤ 255 → addr ≤ 65535 →
    ∃ e, encodeRecord (.readMem dst addr) = .ok e ∧
      e.bytes.map BitVec.toNat = [247, dst, addr % 256, addr / 256] ∧ e.width = 4) ∧
  (∀ base src offset : Nat, base ≤ 255 → src ≤ 255 → offset ≤ 255 →
    ∃ e, encodeRecord (.writeMem base src offset) = .ok e ∧
      e.bytes.map BitVec.toNat = [115, base, src, offset] ∧ e.width = 4) ∧
  ∀ dst lhs rhsBase rhsOffset : Nat, dst ≤ 255 → lhs ≤ 255 → rhsBase ≤ 255 → rhsOffset ≤ 255 →
    ∃ e, encodeRecord (.binOpLe dst lhs rhsBase rhsOffset) = .ok e ∧
      e.bytes.map BitVec.toNat = [83, dst, lhs, rhsBase, rhsOffset] ∧ e.width = 5

/-- R67: the trace record holds the opcode and the operands in operand order, `D` and `E` only where there are that many
(which letter takes which operand is the spec's own choice, D16; log 21). -/
def Obligations.TraceRecordHoldsTheOperandsInOrder : Prop :=
  ∀ (r : Record) (e : Encoded), encodeRecord r = .ok e →
    e.trace = match r with
      | .loadConst dst value => ⟨192, dst, value, none, none⟩
      | .readMem dst addr => ⟨247, dst, addr, none, none⟩
      | .writeMem base src offset => ⟨115, base, src, some offset, none⟩
      | .binOpLe dst lhs rhsBase rhsOffset => ⟨83, dst, lhs, some rhsBase, some rhsOffset⟩

/-- R66: a program's encoding is the concatenation of its instructions' and nothing else, its length the sum of the
widths; if one record does not fit, there is no output at all. -/
def Obligations.ProgramEncodingIsConcatenationOrNothing : Prop :=
  ∀ rs : List Record,
    ((∀ r ∈ rs, r.wf = true) →
      encodeProgram rs = .ok (streamOf (rs.map Record.toInstr), rs.map fun r => trace r.toInstr) ∧
      (streamOf (rs.map Record.toInstr)).length = (rs.map fun r => r.toInstr.width).sum) ∧
    ((∃ r ∈ rs, r.wf = false) → ∃ o, encodeProgram rs = .error o)

/-- R56 (inferred by the spec from R51 to R53 and R55; the numbering is its own, D15): the fields as bit ranges of the
instruction read as one little-endian integer, as the opcode table holds them. -/
def Obligations.OpcodeTableFieldsAreTheDecodersOperands : Prop :=
  (∀ (dst : Byte) (value : Half),
    decodeTableWord 32 (192 + dst.toNat * 2 ^ 8 + value.toNat * 2 ^ 16) = some (.loadConst dst value)) ∧
  (∀ (dst : Byte) (addr : Half),
    decodeTableWord 32 (247 + dst.toNat * 2 ^ 8 + addr.toNat * 2 ^ 16) = some (.readMem dst addr)) ∧
  (∀ base src offset : Byte,
    decodeTableWord 32 (115 + base.toNat * 2 ^ 8 + src.toNat * 2 ^ 16 + offset.toNat * 2 ^ 24) =
      some (.writeMem base src offset)) ∧
  ∀ dst lhs rhsBase rhsOffset : Byte,
    decodeTableWord 40 (83 + dst.toNat * 2 ^ 8 + lhs.toNat * 2 ^ 16 + rhsBase.toNat * 2 ^ 24 +
      rhsOffset.toNat * 2 ^ 32) = some (.binOpLe dst lhs rhsBase rhsOffset)

/-- The host's two readings of an instruction word agree: placed where the next step fetches, in any state, the word
runs as the instruction the decoder reads from it (log 29: the placing is the model's own). -/
def Obligations.PlacedWordRunsAsItsDecodedInstruction : Prop :=
  ∀ (s : State) (nbits w : Nat) (i : Instr), decodeTableWord nbits w = some i →
    step (s.withFetchWord nbits w) = exec i (s.withFetchWord nbits w) ∧
    (s.withFetchWord nbits w).registers = s.registers ∧ (s.withFetchWord nbits w).memory = s.memory ∧
    (s.withFetchWord nbits w).pc = s.pc

/-! ### Assembler syntax -/

/-- R79: assembling the printed lines of any instructions gives back their bytes and trace records (the printed
form is the spec's own choice, D16; log 21). -/
def Obligations.AssemblingDisassembledLinesGivesTheBytes : Prop :=
  ∀ is : List Instr, assemble (is.map disassemble) = .ok (streamOf is, is.map trace)

/-- R74: a line whose leading token is no mnemonic, after lines that assemble, aborts the whole pass; the error names
the token. The line number beside it, from 0 and with blank lines counted (log 26), and that the lines after it, whatever
they hold, do not change what is reported (log 31) are the model's own choices; that only the upper-case spellings are
mnemonics is the spec's (U12; log 33). -/
def Obligations.UnknownMnemonicAbortsTheAssembly : Prop :=
  ∀ (before after : List (List Char)) (line : List Char) (m : Token) (args : List Token),
    (∃ out, assemble before = .ok out) → tokens line = m :: args →
    (∀ mn : Mnemonic, m ≠ mn.spelling) →
    assemble (before ++ line :: after) = .error (before.length, .unknownMnemonic m)

/-- R75: too few or too many operands after a mnemonic. That the operands are counted as tokens, before it is looked at
whether they are literals (log 26), and what the error carries (log 32) are the model's own choices. -/
def Obligations.OperandCountMismatchIsArityError : Prop :=
  ∀ (line : List Char) (mn : Mnemonic) (args : List Token),
    tokens line = mn.spelling :: args → args.length ≠ mn.arity →
    parseLine line = .error (.arityError mn args.length)

/-- R76: blank lines are skipped. -/
def Obligations.BlankLinesAreSkipped : Prop :=
  ∀ (lines : List (List Char)) (out : List Byte × List TraceRecord),
    assemble lines = .ok out ↔ assemble (lines.filter fun line => tokens line ≠ []) = .ok out
end

