-- ==== Sys2Proof/Laws/Assembler.lean ====
section
/-! SUPPORT. Printing a number in decimal and reading it back. -/

namespace Sys2Proof.Machine

theorem digit_digitChar : ∀ d < 10, digit (digitChar d) = some d := by decide

theorem isSpace_digitChar : ∀ d < 10, isSpace (digitChar d) = false := by decide

/-- Reading the printed digits of `n` after a number `acc` that already holds the digits before them. -/
theorem digitsFrom_decimalFrom (fuel n : Nat) (h : n < fuel) (rest : Token) :
    digitsFrom 0 (decimalFrom fuel n rest) = digitsFrom n rest := by
  induction fuel generalizing n rest with
  | zero => omega
  | succ fuel ih =>
    unfold decimalFrom
    split
    · rename_i hn
      simp [digitsFrom, digit_digitChar n hn]
    · rename_i hn
      rw [ih (n / 10) (by omega)]
      simp only [digitsFrom, digit_digitChar (n % 10) (Nat.mod_lt _ (by omega))]
      congr 1
      omega

theorem decimal_ne_nil (n : Nat) : decimal n ≠ [] := by
  have aux : ∀ fuel n acc, acc ≠ [] → decimalFrom fuel n acc ≠ [] := by
    intro fuel
    induction fuel with
    | zero => intro n acc h; simpa [decimalFrom] using h
    | succ fuel ih =>
      intro n acc h
      unfold decimalFrom
      split
      · simp
      · exact ih _ _ (by simp)
  unfold decimal decimalFrom
  split
  · simp
  · exact aux _ _ _ (by simp)

/-- A printed number is a literal of that value. -/
theorem literal_decimal (n : Nat) : literal (decimal n) = some n := by
  have h := digitsFrom_decimalFrom (n + 1) n (by omega) []
  cases hd : decimal n with
  | nil => exact absurd hd (decimal_ne_nil n)
  | cons c cs =>
    rw [decimal] at hd
    rw [hd] at h
    simpa [literal, digitsFrom] using h

/-- A printed number holds no white space. -/
theorem decimal_no_space (n : Nat) : ∀ c ∈ decimal n, isSpace c = false := by
  have aux : ∀ fuel n acc, (∀ c ∈ acc, isSpace c = false) → ∀ c ∈ decimalFrom fuel n acc, isSpace c = false := by
    intro fuel
    induction fuel with
    | zero => intro n acc h; simpa [decimalFrom] using h
    | succ fuel ih =>
      intro n acc h
      unfold decimalFrom
      split
      · rename_i hn
        simp only [List.mem_cons]
        rintro c (rfl | hc)
        · exact isSpace_digitChar n hn
        · exact h c hc
      · apply ih
        simp only [List.mem_cons]
        rintro c (rfl | hc)
        · exact isSpace_digitChar _ (Nat.mod_lt _ (by omega))
        · exact h c hc
  exact aux _ _ [] (by simp)

end Sys2Proof.Machine
end

