-- ==== Sys2Proof/Laws/Encoding.lean ====
section
/-! SUPPORT. Lemmas of the byte order, the operand checks and the opcode map. -/

namespace Sys2Proof

theorem le16_toNat (lo hi : Byte) : (le16 lo hi).toNat = lo.toNat + 256 * hi.toNat := by
  have h1 := lo.isLt
  have h2 := hi.isLt
  simp only [le16, BitVec.toNat_ofNat]
  omega

theorem lowByte_toNat (v : Half) : (lowByte v).toNat = v.toNat % 256 := by
  simp [lowByte]

theorem highByte_toNat (v : Half) : (highByte v).toNat = v.toNat / 256 := by
  have h := v.isLt
  simp only [highByte, BitVec.toNat_ofNat]
  omega

/-- Splitting a 16-bit field into its bytes and putting them together again gives the field. -/
@[simp] theorem le16_lowByte_highByte (v : Half) : le16 (lowByte v) (highByte v) = v := by
  apply BitVec.eq_of_toNat_eq
  rw [le16_toNat, lowByte_toNat, highByte_toNat]
  omega

@[simp] theorem lowByte_le16 (lo hi : Byte) : lowByte (le16 lo hi) = lo := by
  apply BitVec.eq_of_toNat_eq
  have h := lo.isLt
  rw [lowByte_toNat, le16_toNat]
  omega

@[simp] theorem highByte_le16 (lo hi : Byte) : highByte (le16 lo hi) = hi := by
  apply BitVec.eq_of_toNat_eq
  have h := lo.isLt
  rw [highByte_toNat, le16_toNat]
  omega

@[simp] theorem opcodeWidth_opcode (i : Instr) : opcodeWidth i.opcode = some i.width := by
  cases i <;> rfl

@[simp] theorem fitsU8_toNat (b : Byte) : fitsU8 b.toNat = true :=
  decide_eq_true (Nat.le_of_lt_succ b.isLt)

@[simp] theorem fitsU16_toNat (v : Half) : fitsU16 v.toNat = true :=
  decide_eq_true (Nat.le_of_lt_succ v.isLt)

/-- An instruction fits its fields by its type (R54, R62). -/
@[simp] theorem wf_instr (i : Instr) : i.wf = true := by
  cases i <;> simp [Instr.wf, Instr.toRecord, Record.wf]

/-- The encoder's operand check finds nothing exactly when the record is valid (R64). -/
theorem overflow_eq_none_iff (r : Record) : r.overflow = none ↔ r.wf = true := by
  cases r <;> simp [Record.overflow, Record.operands, Record.wf, firstMisfit] <;> grind

@[simp] theorem toInstr_toRecord (i : Instr) : i.toRecord.toInstr = i := by
  cases i <;> simp [Instr.toRecord, Record.toInstr]

@[simp] theorem length_encode (i : Instr) : (encode i).length = i.width := by
  cases i <;> rfl

theorem byteOf_eq (I k : Nat) (b : Byte) (h : I / 256 ^ k % 256 = b.toNat) : byteOf I k = b := by
  apply BitVec.eq_of_toNat_eq
  simpa [byteOf] using h

/-- The bytes of a 4-byte instruction given as one little-endian number (R6). -/
theorem tableBytes_four (b0 b1 b2 b3 : Byte) :
    tableBytes 32 (b0.toNat + b1.toNat * 2 ^ 8 + b2.toNat * 2 ^ 16 + b3.toNat * 2 ^ 24) = [b0, b1, b2, b3, 0] := by
  have := b0.isLt
  have := b1.isLt
  have := b2.isLt
  have := b3.isLt
  unfold tableBytes
  rw [Nat.mod_eq_of_lt (by omega)]
  generalize hI : b0.toNat + b1.toNat * 2 ^ 8 + b2.toNat * 2 ^ 16 + b3.toNat * 2 ^ 24 = I
  simp only [byteOf_eq I 0 b0 (by omega), byteOf_eq I 1 b1 (by omega), byteOf_eq I 2 b2 (by omega),
    byteOf_eq I 3 b3 (by omega), byteOf_eq I 4 0 (by simp; omega)]

/-- The bytes of a 5-byte instruction given as one little-endian number (R6). -/
theorem tableBytes_five (b0 b1 b2 b3 b4 : Byte) :
    tableBytes 40 (b0.toNat + b1.toNat * 2 ^ 8 + b2.toNat * 2 ^ 16 + b3.toNat * 2 ^ 24 + b4.toNat * 2 ^ 32) =
      [b0, b1, b2, b3, b4] := by
  have := b0.isLt
  have := b1.isLt
  have := b2.isLt
  have := b3.isLt
  have := b4.isLt
  unfold tableBytes
  rw [Nat.mod_eq_of_lt (by omega)]
  generalize hI : b0.toNat + b1.toNat * 2 ^ 8 + b2.toNat * 2 ^ 16 + b3.toNat * 2 ^ 24 + b4.toNat * 2 ^ 32 = I
  simp only [byteOf_eq I 0 b0 (by omega), byteOf_eq I 1 b1 (by omega), byteOf_eq I 2 b2 (by omega),
    byteOf_eq I 3 b3 (by omega), byteOf_eq I 4 b4 (by omega)]

theorem width_pos (i : Instr) : Config.lenMin ≤ i.width := by
  cases i <;> simp [Instr.width, Config.lenMin, Config.lenI, Config.lenM, Config.lenC]

theorem width_le (i : Instr) : i.width ≤ Config.lenC := by
  cases i <;> simp [Instr.width, Config.lenI, Config.lenM, Config.lenC]

end Sys2Proof
end

