-- ==== Sys2Proof/Laws/Memory.lean ====
section
/-! SUPPORT. The laws of the data memory: read after write, and every operation keeps the canonical form. -/

namespace Sys2Proof.Machine.Memory

theorem read_erase (m : Memory) (a b : Nat) :
    read (erase m a) b = if b = a then unlistedCell else read m b := by
  induction m with
  | nil => simp [erase, read]
  | cons e m ih =>
    obtain ⟨c, w⟩ := e
    by_cases hca : c = a
    · subst hca
      simp only [erase, if_true, ih, read]
      by_cases hb : b = c
      · simp [hb]
      · simp [hb, Ne.symm hb]
    · simp only [erase, hca, if_false, read, ih]
      by_cases hcb : c = b
      · subst hcb; simp [hca]
      · simp [hcb]

theorem read_insert (m : Memory) (a b : Nat) (v : Cell) (h : read m a = unlistedCell) (hm : ∀ e ∈ m, e.1 ≠ a) :
    read (insert m a v) b = if b = a then v else read m b := by
  induction m with
  | nil =>
    by_cases hb : b = a
    · simp [insert, read, hb]
    · simp [insert, read, hb, Ne.symm hb]
  | cons e m ih =>
    obtain ⟨c, w⟩ := e
    have hca : c ≠ a := hm (c, w) (by simp)
    have ih := ih (by simpa [read, hca] using h) fun e he => hm e (by simp [he])
    by_cases hlt : a < c
    · by_cases hb : b = a
      · simp [insert, hlt, read, hb]
      · simp [insert, hlt, read, hb, Ne.symm hb]
    · simp only [insert, hlt, if_false, read, ih]
      by_cases hcb : c = b
      · subst hcb; simp [hca]
      · simp [hcb]

theorem ne_of_mem_erase (m : Memory) (a : Nat) : ∀ e ∈ erase m a, e.1 ≠ a := by
  induction m with
  | nil => simp [erase]
  | cons e m ih =>
    obtain ⟨c, w⟩ := e
    by_cases hca : c = a
    · simpa [erase, hca] using ih
    · simp only [erase, hca, if_false, List.mem_cons]
      rintro e (rfl | he)
      · exact hca
      · exact ih e he

/-- Read after write (R37): the written cell reads the written value, every other cell as before; in every memory, the
canonical ones among them. -/
theorem read_write (m : Memory) (a b : Nat) (v : Cell) :
    read (write m a v) b = if b = a then v else read m b := by
  unfold write
  by_cases hv : v = unlistedCell
  · simp [hv, read_erase]
  · have h0 : read (erase m a) a = unlistedCell := by simp [read_erase]
    rw [if_neg hv, read_insert _ _ _ _ h0 (ne_of_mem_erase m a)]
    by_cases hb : b = a <;> simp [hb, read_erase]

@[simp] theorem read_write_same (m : Memory) (a : Nat) (v : Cell) : read (write m a v) a = v := by
  simp [read_write]

theorem read_write_of_ne (m : Memory) {a b : Nat} (v : Cell) (h : b ≠ a) :
    read (write m a v) b = read m b := by
  simp [read_write, h]

theorem wfFrom_cons (n a : Nat) (v : Cell) (m : Memory) :
    wfFrom n ((a, v) :: m) = true ↔
      n ≤ a ∧ a < Config.memSize ∧ v ≠ unlistedCell ∧ wfFrom (a + 1) m = true := by
  simp [wfFrom, and_assoc]

theorem wfFrom_mono {n k : Nat} (h : k ≤ n) : ∀ {m : Memory}, wfFrom n m = true → wfFrom k m = true
  | [], _ => rfl
  | (a, v) :: m, hm => by
    rw [wfFrom_cons] at hm ⊢
    exact ⟨by omega, hm.2⟩

theorem wfFrom_erase (a : Nat) : ∀ {n : Nat} {m : Memory}, wfFrom n m = true → wfFrom n (erase m a) = true
  | _, [], _ => rfl
  | n, (c, w) :: m, hm => by
    rw [wfFrom_cons] at hm
    by_cases hca : c = a
    · simp only [erase, hca, if_true]
      exact wfFrom_mono (by omega) (wfFrom_erase a hm.2.2.2)
    · simp only [erase, hca, if_false]
      rw [wfFrom_cons]
      exact ⟨hm.1, hm.2.1, hm.2.2.1, wfFrom_erase a hm.2.2.2⟩

theorem wfFrom_insert {a : Nat} {v : Cell} (ha : a < Config.memSize) (hv : v ≠ unlistedCell) :
    ∀ {n : Nat} {m : Memory}, n ≤ a → (∀ e ∈ m, e.1 ≠ a) → wfFrom n m = true → wfFrom n (insert m a v) = true
  | n, [], hn, _, _ => by simp [insert, wfFrom, hn, ha, hv]
  | n, (c, w) :: m, hn, hne, hm => by
    rw [wfFrom_cons] at hm
    have hca : c ≠ a := hne (c, w) (by simp)
    by_cases hlt : a < c
    · simp only [insert, hlt, if_true]
      rw [wfFrom_cons, wfFrom_cons]
      exact ⟨hn, ha, hv, by omega, hm.2⟩
    · simp only [insert, hlt, if_false]
      rw [wfFrom_cons]
      exact ⟨hm.1, hm.2.1, hm.2.2.1, wfFrom_insert ha hv (by omega) (fun e he => hne e (by simp [he])) hm.2.2.2⟩

/-- Every write inside the memory keeps the canonical form. -/
theorem wf_write {m : Memory} {a : Nat} (v : Cell) (ha : a < Config.memSize) (hm : wf m = true) :
    wf (write m a v) = true := by
  unfold write
  by_cases hv : v = unlistedCell
  · rw [if_pos hv]; exact wfFrom_erase a hm
  · rw [if_neg hv]
    exact wfFrom_insert ha hv (by omega) (ne_of_mem_erase m a) (wfFrom_erase a hm)

/-- The memory of a reset machine, with nothing listed, is canonical. -/
theorem wf_nil : wf [] = true := rfl

theorem wf_reset : wf State.reset.memory = true := rfl

/-- In a canonical list from `n` on, an address below `n` is not listed. -/
theorem read_of_lt : ∀ {n a : Nat} {m : Memory}, wfFrom n m = true → a < n → read m a = unlistedCell
  | _, _, [], _, _ => rfl
  | n, a, (c, w) :: m, hm, h => by
    rw [wfFrom_cons] at hm
    have hca : c ≠ a := by omega
    simp only [read, hca, if_false]
    exact read_of_lt hm.2.2.2 (by omega)

end Sys2Proof.Machine.Memory
end

