-- ==== Sys2Proof/Laws/State.lean ====
section
/-! SUPPORT. One lemma per field of State per update, and the register file's read after write. -/

namespace Sys2Proof.Machine

section SetReg
variable (s : State) (i : Byte) (v : Cell)

@[simp] theorem setReg_memory : (s.setReg i v).memory = s.memory := rfl
@[simp] theorem setReg_pc : (s.setReg i v).pc = s.pc := rfl
@[simp] theorem setReg_status : (s.setReg i v).status = s.status := rfl
@[simp] theorem setReg_fault : (s.setReg i v).fault = s.fault := rfl
@[simp] theorem setReg_prog : (s.setReg i v).prog = s.prog := rfl

@[simp] theorem reg_setReg_same : (s.setReg i v).reg i = v := by
  simp [State.reg, State.setReg]

/-- A register index is its value: distinct fields name distinct registers (R10, R58). -/
theorem reg_setReg (j : Byte) : (s.setReg i v).reg j = if j = i then v else s.reg j := by
  by_cases h : j = i
  · simp [h]
  · have : i.toNat ≠ j.toNat := fun e => h (BitVec.eq_of_toNat_eq e.symm)
    simp [State.reg, State.setReg, h, this]

theorem reg_setReg_of_ne {j : Byte} (h : j ≠ i) : (s.setReg i v).reg j = s.reg j := by
  simp [reg_setReg, h]

end SetReg

section SetCell
variable (s : State) (a : Nat) (v : Cell)

@[simp] theorem setCell_registers : (s.setCell a v).registers = s.registers := rfl
@[simp] theorem setCell_reg (i : Byte) : (s.setCell a v).reg i = s.reg i := rfl
@[simp] theorem setCell_memory : (s.setCell a v).memory = Memory.write s.memory a v := rfl
@[simp] theorem setCell_pc : (s.setCell a v).pc = s.pc := rfl
@[simp] theorem setCell_status : (s.setCell a v).status = s.status := rfl
@[simp] theorem setCell_fault : (s.setCell a v).fault = s.fault := rfl
@[simp] theorem setCell_prog : (s.setCell a v).prog = s.prog := rfl

end SetCell

section Retire
variable (s : State) (n : Nat)

@[simp] theorem retire_registers : (s.retire n).registers = s.registers := rfl
@[simp] theorem retire_reg (i : Byte) : (s.retire n).reg i = s.reg i := rfl
@[simp] theorem retire_memory : (s.retire n).memory = s.memory := rfl
@[simp] theorem retire_pc : (s.retire n).pc = s.pc + n := rfl
@[simp] theorem retire_status :
    (s.retire n).status = if s.pc + n = s.prog.length then .halted else .ready := rfl
@[simp] theorem retire_fault : (s.retire n).fault = s.fault := rfl
@[simp] theorem retire_prog : (s.retire n).prog = s.prog := rfl

theorem retire_not_faulted : (s.retire n).status ≠ .faulted := by
  rw [retire_status]; split <;> decide

end Retire

section Raise
variable (s : State) (e : Raised)

@[simp] theorem raise_registers : (s.raise e).registers = s.registers := rfl
@[simp] theorem raise_reg (i : Byte) : (s.raise e).reg i = s.reg i := rfl
@[simp] theorem raise_memory : (s.raise e).memory = s.memory := rfl
@[simp] theorem raise_pc : (s.raise e).pc = s.pc := rfl
@[simp] theorem raise_status : (s.raise e).status = .faulted := rfl
@[simp] theorem raise_fault : (s.raise e).fault = some ⟨e.kind, s.pc, e.info⟩ := rfl
@[simp] theorem raise_prog : (s.raise e).prog = s.prog := rfl

end Raise

section Init
variable (prog : List Byte)

@[simp] theorem init_memory : (State.init prog).memory = [] := rfl
@[simp] theorem init_pc : (State.init prog).pc = 0 := rfl
@[simp] theorem init_status : (State.init prog).status = if prog.length = 0 then .halted else .ready := rfl
@[simp] theorem init_fault : (State.init prog).fault = none := rfl
@[simp] theorem init_prog : (State.init prog).prog = prog := rfl

@[simp] theorem init_reg (i : Byte) : (State.init prog).reg i = 0 := by
  simp [State.reg, State.init]

end Init

end Sys2Proof.Machine
end

