-- ==== Sys2Proof/Laws/Ops.lean ====
section
/-! SUPPORT. One lemma per shared operation that says everything it can do. -/

namespace Sys2Proof.Machine

/-- The memory's size as a numeral, which `omega` needs. -/
theorem memSize_eq : Config.memSize = 1024 := rfl

theorem memCheck_of_lt {a : Nat} (h : a < Config.memSize) : memCheck a = .ok () := by
  rw [memCheck, if_pos h]

theorem memCheck_of_ge {a : Nat} (h : Config.memSize ≤ a) : memCheck a = .error ⟨.outOfRange, a⟩ := by
  rw [memCheck, if_neg (Nat.not_lt.2 h)]

theorem memRead_of_lt (s : State) {a : Nat} (h : a < Config.memSize) :
    s.memRead a = .ok (Memory.read s.memory a) := by
  rw [State.memRead, memCheck_of_lt h]

theorem memRead_of_ge (s : State) {a : Nat} (h : Config.memSize ≤ a) :
    s.memRead a = .error ⟨.outOfRange, a⟩ := by
  rw [State.memRead, memCheck_of_ge h]

theorem memWrite_of_lt (s : State) {a : Nat} (v : Cell) (h : a < Config.memSize) :
    s.memWrite a v = .ok (s.setCell a v) := by
  rw [State.memWrite, memCheck_of_lt h]

theorem memWrite_of_ge (s : State) {a : Nat} (v : Cell) (h : Config.memSize ≤ a) :
    s.memWrite a v = .error ⟨.outOfRange, a⟩ := by
  rw [State.memWrite, memCheck_of_ge h]

@[simp] theorem complete_ok (s t : State) (n : Nat) : s.complete n (.ok t) = .next (t.retire n) := rfl

@[simp] theorem complete_error (s : State) (n : Nat) (e : Raised) : s.complete n (.error e) = .next (s.raise e) := rfl

/-- An instruction's end, whichever way its body went: the state its body wrote is retired, or the fault is taken. -/
theorem complete_cases (s : State) (n : Nat) (body : Except Raised State) :
    (∃ t, body = .ok t ∧ s.complete n body = .next (t.retire n)) ∨
      (∃ e, body = .error e ∧ s.complete n body = .next (s.raise e)) := by
  cases body with
  | ok t => exact .inl ⟨t, rfl, rfl⟩
  | error e => exact .inr ⟨e, rfl, rfl⟩

/-- Zero extension changes no value (R7, R57). -/
@[simp] theorem toNat_zextW (v : Half) : (zextW v).toNat = v.toNat := by
  simp [zextW]

/-- The ALU's answer is 1 or 0 (R94). -/
theorem aluLe_eq_one_or_zero (a b : Cell) : aluLe a b = 1 ∨ aluLe a b = 0 := by
  unfold aluLe; split <;> simp

/-- A cell holds at most 65535 (R14). -/
theorem cell_lt (c : Cell) : c.toNat < 65536 := c.isLt

theorem absolute_lt (addr : Half) : absolute addr < 65536 := addr.isLt

end Sys2Proof.Machine
end

