-- ==== Sys2Proof/Laws/Step.lean ====
section
/-! SUPPORT. What each meaning and each step can do, said once. -/

namespace Sys2Proof.Machine

theorem execLoadConst_eq (dst : Byte) (value : Half) (s : State) :
    execLoadConst dst value s = .next ((s.setReg dst (zextW value)).retire Config.lenI) := rfl

theorem execReadMem_of_lt (dst : Byte) (addr : Half) (s : State) (h : absolute addr < Config.memSize) :
    execReadMem dst addr s =
      .next ((s.setReg dst (Memory.read s.memory (absolute addr))).retire Config.lenI) := by
  rw [execReadMem, memRead_of_lt s h]; rfl

theorem execReadMem_of_ge (dst : Byte) (addr : Half) (s : State) (h : Config.memSize ≤ absolute addr) :
    execReadMem dst addr s = .next (s.raise ⟨.outOfRange, absolute addr⟩) := by
  rw [execReadMem, memRead_of_ge s h]; rfl

theorem execWriteMem_of_lt (base src offset : Byte) (s : State) (h : s.basePlusOffset base offset < Config.memSize) :
    execWriteMem base src offset s =
      .next ((s.setCell (s.basePlusOffset base offset) (s.reg src)).retire Config.lenM) := by
  rw [execWriteMem, memWrite_of_lt s _ h]; rfl

theorem execWriteMem_of_ge (base src offset : Byte) (s : State) (h : Config.memSize ≤ s.basePlusOffset base offset) :
    execWriteMem base src offset s = .next (s.raise ⟨.outOfRange, s.basePlusOffset base offset⟩) := by
  rw [execWriteMem, memWrite_of_ge s _ h]; rfl

/-- BIN_OP_LE with both addresses in range. -/
theorem execBinOpLe_of_lt (dst lhs rhsBase rhsOffset : Byte) (s : State)
    (hr : s.basePlusOffset rhsBase rhsOffset < Config.memSize) (hw : s.indirect dst < Config.memSize) :
    execBinOpLe dst lhs rhsBase rhsOffset s =
      .next ((s.setCell (s.indirect dst)
        (aluLe (s.reg lhs) (Memory.read s.memory (s.basePlusOffset rhsBase rhsOffset)))).retire Config.lenC) := by
  rw [execBinOpLe, memCheck_of_lt hr, memCheck_of_lt hw, memRead_of_lt s hr]
  change s.complete Config.lenC (s.memWrite _ _) = _
  rw [memWrite_of_lt s _ hw]; rfl

/-- BIN_OP_LE with its read address out of range, whatever its write address (R126). -/
theorem execBinOpLe_of_read_ge (dst lhs rhsBase rhsOffset : Byte) (s : State)
    (hr : Config.memSize ≤ s.basePlusOffset rhsBase rhsOffset) :
    execBinOpLe dst lhs rhsBase rhsOffset s =
      .next (s.raise ⟨.outOfRange, s.basePlusOffset rhsBase rhsOffset⟩) := by
  rw [execBinOpLe, memCheck_of_ge hr]; rfl

/-- BIN_OP_LE with only its write address out of range. -/
theorem execBinOpLe_of_write_ge (dst lhs rhsBase rhsOffset : Byte) (s : State)
    (hr : s.basePlusOffset rhsBase rhsOffset < Config.memSize) (hw : Config.memSize ≤ s.indirect dst) :
    execBinOpLe dst lhs rhsBase rhsOffset s = .next (s.raise ⟨.outOfRange, s.indirect dst⟩) := by
  rw [execBinOpLe, memCheck_of_lt hr, memCheck_of_ge hw]; rfl

theorem step_of_fetch_ok {s : State} {i : Instr} (hs : s.status = .ready) (hf : s.fetch = .ok i) :
    step s = exec i s := by
  simp [step, hs, hf]

theorem step_of_fetch_error {s : State} {e : Raised} (hs : s.status = .ready) (hf : s.fetch = .error e) :
    step s = .next (s.raise e) := by
  simp [step, hs, hf]

/-- Everything a step that answers a next state can be: a fetched instruction run, or fetch's fault taken. -/
theorem step_next_cases {s t : State} (h : step s = .next t) :
    s.status = .ready ∧
      ((∃ i, s.fetch = .ok i ∧ exec i s = .next t) ∨ (∃ e, s.fetch = .error e ∧ t = s.raise e)) := by
  unfold step at h
  split at h
  · rename_i hs
    refine ⟨hs, ?_⟩
    split at h
    · rename_i i hf; exact .inl ⟨i, hf, h⟩
    · rename_i e hf; exact .inr ⟨e, hf, by injection h with h; exact h.symm⟩
  · cases h
  · cases h

@[simp] theorem runFor_zero (s : State) : runFor 0 s = s := rfl

theorem runFor_succ_of_next {s t : State} (n : Nat) (h : step s = .next t) : runFor (n + 1) s = runFor n t := by
  rw [runFor, h]

theorem runFor_of_not_ready {s : State} (h : s.status ≠ .ready) : ∀ n, runFor n s = s
  | 0 => rfl
  | n + 1 => by
    cases hs : s.status with
    | ready => exact absurd hs h
    | halted => simp [runFor, step, hs]
    | faulted => simp [runFor, step, hs]

end Sys2Proof.Machine
end

