-- ==== Sys2Proof/Laws/Exec.lean ====
section
/-! SUPPORT. The inversion lemma of `exec`: everything an instruction can do, said once. -/

namespace Sys2Proof.Machine

/-- What the body of an instruction that completes has written when it is retired: at most the one register and the one cell
the instruction names; the cursor, the fault record and the stream are untouched. -/
structure Wrote (i : Instr) (s t : State) : Prop where
  pc : t.pc = s.pc
  fault : t.fault = s.fault
  prog : t.prog = s.prog
  reg : ∀ j, writtenRegister i ≠ some j → t.reg j = s.reg j
  cell : ∀ a, storedAddress s i ≠ some a → Memory.read t.memory a = Memory.read s.memory a
  wf : Memory.wf s.memory = true → Memory.wf t.memory = true

/-- An instruction either has all its data addresses in range, writes and retires, or takes `OutOfRange` of one that is not. -/
theorem exec_cases (i : Instr) (s : State) :
    (∃ t, exec i s = .next (t.retire i.width) ∧ Wrote i s t ∧ ∀ a ∈ dataAddresses s i, a < Config.memSize) ∨
      ∃ a ∈ dataAddresses s i, Config.memSize ≤ a ∧ exec i s = .next (s.raise ⟨.outOfRange, a⟩) := by
  cases i with
  | loadConst dst value =>
    refine .inl ⟨_, execLoadConst_eq dst value s, ⟨rfl, rfl, rfl, fun j h => ?_, fun _ _ => rfl, id⟩, by simp [dataAddresses]⟩
    exact reg_setReg_of_ne _ _ _ (by simpa [writtenRegister, eq_comm] using h)
  | readMem dst addr =>
    rcases Nat.lt_or_ge (absolute addr) Config.memSize with h | h
    · refine .inl ⟨_, execReadMem_of_lt dst addr s h, ⟨rfl, rfl, rfl, fun j hj => ?_, fun _ _ => rfl, id⟩,
        by simpa [dataAddresses] using h⟩
      exact reg_setReg_of_ne _ _ _ (by simpa [writtenRegister, eq_comm] using hj)
    · exact .inr ⟨_, by simp [dataAddresses], h, execReadMem_of_ge dst addr s h⟩
  | writeMem base src offset =>
    rcases Nat.lt_or_ge (s.basePlusOffset base offset) Config.memSize with h | h
    · refine .inl ⟨_, execWriteMem_of_lt base src offset s h,
        ⟨rfl, rfl, rfl, fun _ _ => rfl, fun a ha => ?_, Memory.wf_write _ h⟩, by simpa [dataAddresses] using h⟩
      exact Memory.read_write_of_ne _ _ (by simpa [storedAddress, eq_comm] using ha)
    · exact .inr ⟨_, by simp [dataAddresses], h, execWriteMem_of_ge base src offset s h⟩
  | binOpLe dst lhs rhsBase rhsOffset =>
    rcases Nat.lt_or_ge (s.basePlusOffset rhsBase rhsOffset) Config.memSize with hr | hr
    · rcases Nat.lt_or_ge (s.indirect dst) Config.memSize with hw | hw
      · refine .inl ⟨_, execBinOpLe_of_lt dst lhs rhsBase rhsOffset s hr hw,
          ⟨rfl, rfl, rfl, fun _ _ => rfl, fun a ha => ?_, Memory.wf_write _ hw⟩, by simp [dataAddresses, hr, hw]⟩
        exact Memory.read_write_of_ne _ _ (by simpa [storedAddress, eq_comm] using ha)
      · exact .inr ⟨_, by simp [dataAddresses], hw, execBinOpLe_of_write_ge dst lhs rhsBase rhsOffset s hr hw⟩
    · exact .inr ⟨_, by simp [dataAddresses], hr, execBinOpLe_of_read_ge dst lhs rhsBase rhsOffset s hr⟩

end Sys2Proof.Machine
end

