-- ==== Sys2Proof/Laws/PerInstr.lean ====
section
/-! SUPPORT. The family EncodedShape: one lemma per constructor of Instr (R50, R55, R63, R65). -/

namespace Sys2Proof.Laws.EncodedShape

/-- The encoding is as long as the opcode's width says, and starts with the opcode byte. -/
def Statement (i : Instr) : Prop := (encode i).length = i.width ∧ (encode i).head? = some i.opcode

theorem loadConst (dst : Byte) (value : Half) : Statement (.loadConst dst value) := ⟨rfl, rfl⟩

theorem readMem (dst : Byte) (addr : Half) : Statement (.readMem dst addr) := ⟨rfl, rfl⟩

theorem writeMem (base src offset : Byte) : Statement (.writeMem base src offset) := ⟨rfl, rfl⟩

theorem binOpLe (dst lhs rhsBase rhsOffset : Byte) : Statement (.binOpLe dst lhs rhsBase rhsOffset) := ⟨rfl, rfl⟩

end Sys2Proof.Laws.EncodedShape
end

