-- ==== Sys2Proof/Tests/Slice0.lean ====
section
/-! SUPPORT. The model's own tests. Expected results come from the spec's vectors (95_test_vectors.md, named in each section) or
from its rules by hand, never from the model. The second half shows, for every statement with hypotheses, that they can be met. -/

namespace Sys2Proof.Tests

open Sys2Proof Sys2Proof.Machine

/-! ### Helpers -/

/-- A state that runs `prog` from its start with some registers and cells already holding values. -/
def state (regs : List (Byte × Cell)) (mem : Memory) (prog : List Byte) : State :=
  regs.foldl (fun s p => s.setReg p.1 p.2) { State.init prog with memory := mem }

/-- The outcome is a next state that passes the check. -/
def nextIs (o : Host.Outcome State Fault Refusal) (check : State → Bool) : Bool :=
  match o with
  | .next t => check t
  | .fault _ => false
  | .refused _ => false

/-! ### WellFormed: an ill-formed record for each operand check, refused by the check and named by the encoder (R64) -/

theorem test_wf_loadConst_dst : (Record.loadConst 256 0).wf = false := by decide
theorem test_wf_loadConst_value : (Record.loadConst 0 65536).wf = false := by decide
theorem test_wf_readMem_dst : (Record.readMem 256 0).wf = false := by decide
theorem test_wf_readMem_addr : (Record.readMem 0 65536).wf = false := by decide
theorem test_wf_writeMem_base : (Record.writeMem 256 0 0).wf = false := by decide
theorem test_wf_writeMem_src : (Record.writeMem 0 256 0).wf = false := by decide
theorem test_wf_writeMem_offset : (Record.writeMem 0 0 256).wf = false := by decide
theorem test_wf_binOpLe_dst : (Record.binOpLe 256 0 0 0).wf = false := by decide
theorem test_wf_binOpLe_lhs : (Record.binOpLe 0 256 0 0).wf = false := by decide
theorem test_wf_binOpLe_rhsBase : (Record.binOpLe 0 0 256 0).wf = false := by decide
theorem test_wf_binOpLe_rhsOffset : (Record.binOpLe 0 0 0 256).wf = false := by decide

/-- Every operand at its largest value is well formed; an address is not compared with 1024 (R64). -/
theorem test_wf_largest :
    ([.loadConst 255 65535, .readMem 255 65535, .writeMem 255 255 255, .binOpLe 255 255 255 255] : List Record).all
      Record.wf = true := by decide

/-- V-ENC table 2, row OVF4: both operands too large, the first is named. -/
theorem test_encode_overflow_first : encodeRecord (.readMem 300 70000) = .error ⟨.dst, 300⟩ := by decide

/-- V-ENC table 2, row OVF9: the whole program is refused. -/
theorem test_encodeProgram_refused :
    encodeProgram [.loadConst 0 5, .loadConst 0 65536] = .error (1, ⟨.value, 65536⟩) := by decide

/-! ### Decoding: words written out from the layouts of R51 to R53 (V-ENC tables 1 and 3) -/

/-- Row E5: 4660 = 0x1234 stands as `34 12`. -/
theorem test_decode_loadConst : decode [0xC0, 0x07, 0x34, 0x12] 0 = .ok (.loadConst 7 4660, 4) := by decide
/-- Row E10. -/
theorem test_decode_readMem : decode [0xF7, 0x0C, 0xFF, 0x03] 0 = .ok (.readMem 12 1023, 4) := by decide
/-- Row E15. -/
theorem test_decode_writeMem : decode [0x73, 0xFF, 0xFE, 0xFD] 0 = .ok (.writeMem 255 254 253, 4) := by decide
/-- Row E18. -/
theorem test_decode_binOpLe : decode [0x53, 0xFF, 0xFE, 0xFD, 0xFC] 0 = .ok (.binOpLe 255 254 253 252, 5) := by decide
/-- Row DEC21: at an offset. -/
theorem test_decode_at_offset :
    decode [0xC0, 0x00, 0x05, 0x00, 0x53, 0x05, 0x01, 0x06, 0x02] 4 = .ok (.binOpLe 5 1 6 2, 5) := by decide
/-- Rows DEC2, DEC3, DEC11, DEC12: the whole byte is compared. -/
theorem test_decode_unknown :
    decode [0xFF] 0 = .error (.unknownOpcode 255) ∧ decode [0xC1, 0, 0, 0] 0 = .error (.unknownOpcode 193) ∧
    decode [0x40, 0, 0, 0] 0 = .error (.unknownOpcode 64) ∧ decode [0xD3, 0, 0, 0, 0] 0 = .error (.unknownOpcode 211) := by
  decide
/-- Rows DEC13, DEC17, DEC18, DEC19. -/
theorem test_decode_truncated :
    decode [0xC0, 0x00, 0x05] 0 = .error (.truncatedInstruction 3) ∧
    decode [0x53, 0x01, 0x02, 0x03] 0 = .error (.truncatedInstruction 4) ∧
    decode [0x53] 0 = .error (.truncatedInstruction 1) ∧ decode [] 0 = .error (.truncatedInstruction 0) := by decide
/-- The integer view of E17 and E6. -/
theorem test_decodeTableWord :
    decodeTableWord 40 0x0206010553 = some (.binOpLe 5 1 6 2) ∧
    decodeTableWord 32 0x03E80AC0 = some (.loadConst 10 1000) := by decide

/-- Row E6, with its trace record. -/
theorem test_encode_loadConst :
    encodeRecord (.loadConst 10 1000) = .ok ⟨[0xC0, 0x0A, 0xE8, 0x03], 4, ⟨192, 10, 1000, none, none⟩⟩ := by decide
/-- Row E17, with its trace record. -/
theorem test_encode_binOpLe :
    encodeRecord (.binOpLe 5 1 6 2) = .ok ⟨[0x53, 5, 1, 6, 2], 5, ⟨83, 5, 1, some 6, some 2⟩⟩ := by decide

/-! ### One step of each instruction (V-LC, V-RM, V-WM, V-LE) -/

/-- Row L4: the old value is replaced whole; the run ends at the end of the stream. -/
theorem test_loadConst_replaces :
    nextIs (step (state [(9, 65535)] [] [0xC0, 0x09, 0x00, 0x01])) (fun t =>
      t.reg 9 = 256 && t.pc = 4 && t.status = .halted && t.memory = []) = true := by decide

/-- Row M2: the highest cell. -/
theorem test_readMem_last_cell :
    nextIs (exec (.readMem 12 1023) (state [] [(1023, 65535)] [])) (fun t =>
      t.reg 12 = 65535 && t.memory = [(1023, 65535)] && t.pc = 4) = true := by decide
/-- Row M4: the fault leaves register and cursor. -/
theorem test_readMem_out_of_range :
    nextIs (step (state [(3, 7)] [] [0xF7, 0x03, 0x00, 0x04])) (fun t =>
      t.status = .faulted && t.fault = some ⟨.outOfRange, 0, 1024⟩ && t.reg 3 = 7 && t.pc = 0) = true := by decide

/-- Row W7: base and source are the same register. -/
theorem test_writeMem_last_cell :
    nextIs (exec (.writeMem 0 0 255) (state [(0, 768)] [] [])) (fun t => t.memory = [(1023, 768)] && t.reg 0 = 768) =
      true := by decide
/-- Row W5: the sum is exact. -/
theorem test_writeMem_exact_sum :
    nextIs (exec (.writeMem 0 0 255) (state [(0, 65535)] [] [])) (fun t =>
      t.fault = some ⟨.outOfRange, 0, 65790⟩ && t.memory = []) = true := by decide

/-- Row B1, the source's example. -/
theorem test_binOpLe_source_example :
    nextIs (step (state [(1, 4), (5, 2), (6, 8)] [(10, 9)] [0x53, 0x05, 0x01, 0x06, 0x02])) (fun t =>
      t.memory = [(2, 1), (10, 9)] && t.pc = 5 && t.reg 5 = 2) = true := by decide
/-- Row B6: read cell and written cell are the same, and the written 0 leaves the canonical form. -/
theorem test_binOpLe_same_cell :
    nextIs (exec (.binOpLe 0 3 0 0) (state [(0, 7), (3, 2)] [(7, 1)] [])) (fun t => t.memory = []) = true := by decide

/-- Rows ALU7, ALU9 and ALU6. -/
theorem test_alu : aluLe 65535 0 = 0 ∧ aluLe 32768 32767 = 0 ∧ aluLe 65535 65535 = 1 := by decide

/-! ### Faults of fetch, reset, window, codes -/

/-- Row F5: an illegal last byte is unknown, not truncated. -/
theorem test_step_unknown_opcode :
    nextIs (step { state [] [] [0xC0, 0, 5, 0, 0xFF] with pc := 4 }) (fun t =>
      t.fault = some ⟨.unknownOpcode, 4, 255⟩ && t.pc = 4 && t.status = .faulted) = true := by decide
/-- Row F7: truncation before the address. -/
theorem test_step_truncated :
    nextIs (step (state [] [] [0xF7, 0x00, 0x00])) (fun t => t.fault = some ⟨.truncatedInstruction, 0, 3⟩) = true := by
  decide
/-- Row ONE5: the empty stream is halted at reset. -/
theorem test_reset_empty : State.reset.status = .halted ∧ (State.init [0x00]).status = .ready := by decide
/-- Rows X2, X6, X7 on the end state of P1. -/
theorem test_window :
    window (state [] [(5, 10)] []) 5 6 = .ok [10] ∧
    window (state [] [(5, 10)] []) 6 5 = .error (.outOfRange 6 5) ∧
    window (state [] [(5, 10)] []) 0 1025 = .error (.outOfRange 0 1025) := by decide
/-- R121. -/
theorem test_faultCode :
    [faultCode none, faultCode (some ⟨.unknownOpcode, 0, 0⟩), faultCode (some ⟨.truncatedInstruction, 0, 1⟩),
      faultCode (some ⟨.outOfRange, 0, 1024⟩), operandOverflowCode] = [0, 1, 2, 3, 4] := by decide
/-- The host's placing of an instruction word, right after reset: row ONE1. -/
theorem test_withFetchWord :
    nextIs (step (State.reset.withFetchWord 32 0x123407C0)) (fun t =>
      t.reg 7 = 4660 && t.pc = 4 && t.status = .halted) = true := by decide

/-! ### Assembler lines (V-ASM) -/

/-- Row A2. -/
theorem test_parse_blanks :
    parseLine [' ', ' ', 'W', 'R', 'I', 'T', 'E', '_', 'M', 'E', 'M', ' ', ' ', ' ', '2', ' ', ' ', '3', ' ', ' ', '2', ' '] =
      .ok (some (.writeMem 2 3 2)) := by decide
/-- Row A4. -/
theorem test_parse_unknown : parseLine ['H', 'A', 'L', 'T'] = .error (.unknownMnemonic ['H', 'A', 'L', 'T']) := by decide
/-- Row A12: no register names. -/
theorem test_parse_not_a_literal :
    parseLine (Mnemonic.loadConst.spelling ++ [' ', 'r', '0', ' ', '5']) = .error (.notALiteral ['r', '0']) := by decide
/-- The line of row E5. -/
theorem test_disassemble :
    disassemble (.loadConst 7 4660) = Mnemonic.loadConst.spelling ++ [' ', '7', ' ', '4', '6', '6', '0'] := by decide

/-! ### Witnesses: the hypotheses of every statement can be met, each clause at a boundary -/

/-- A machine given one LOAD_CONST and reset. -/
def fresh : State := State.init [0xC0, 0x07, 0x34, 0x12]

theorem fresh_inv : fresh.Inv where
  memory_wf := rfl
  pc_le := Nat.zero_le _
  status_eq := by decide
  fault_ok := fun _ h => nomatch h

theorem fresh_steps : step fresh = .next ((fresh.setReg 7 4660).retire 4) := rfl

/-- A faulted machine with a stream. -/
def broken : State := fresh.raise ⟨.outOfRange, 1024⟩

theorem witness_reset :
    decode [0xC0, 0x07, 0x34, 0x12] 0 = .ok (.loadConst 7 4660, 4) ∧ 0 < [0xC0, 0x07].length ∧ ([] : List Byte).length = 0 := by
  decide
theorem witness_restart : 0 < broken.prog.length ∧ State.reset.prog.length = 0 := by decide
theorem witness_readMem : (1023 : Half).toNat < 1024 ∧ 1024 ≤ (1024 : Half).toNat := by decide
theorem witness_writeMem :
    (state [(0, 1000)] [] []).basePlusOffset 0 23 < 1024 ∧ 1024 ≤ (state [(0, 1000)] [] []).basePlusOffset 0 24 := by decide
theorem witness_binOpLe_completes :
    (state [(0, 1023)] [] []).basePlusOffset 0 0 < 1024 ∧ (state [(0, 1023)] [] []).indirect 0 < 1024 := by decide
theorem witness_binOpLe_read_fault : 1024 ≤ (state [(0, 1023)] [] []).basePlusOffset 0 1 := by decide
theorem witness_binOpLe_write_fault :
    (state [(0, 1024)] [] []).basePlusOffset 1 255 < 1024 ∧ 1024 ≤ (state [(0, 1024)] [] []).indirect 0 := by decide
theorem witness_alu : (32767 : Cell).toNat ≤ (32767 : Cell).toNat ∧ (32767 : Cell).toNat < (32768 : Cell).toNat := by decide
theorem witness_effectiveAddress :
    (state [(0, 768)] [] []).basePlusOffset 0 255 < 1024 ∧ 1024 ≤ (state [(0, 769)] [] []).basePlusOffset 0 255 := by decide
/-- For the cursor and for `OutOfRange`: an instruction that completes and one that faults. -/
theorem witness_completes_and_faults :
    nextIs (exec (.readMem 0 1023) fresh) (fun t => t.status ≠ .faulted) = true ∧
    nextIs (exec (.readMem 0 1024) fresh) (fun t => t.status = .faulted) = true := by decide
theorem witness_registers :
    writtenRegister (.loadConst 7 1) ≠ some 8 ∧ (2 : Byte) ∉ readRegisters (.writeMem 0 1 0) ∧
    (7 : Byte) ∉ readRegisters (.loadConst 7 1) := by decide
theorem witness_stored : storedAddress fresh (.writeMem 0 1 9) ≠ some 8 := by decide

/-- Store 10 at cell 5, then a LOAD_CONST and a store at cell 0, then load cell 5. -/
theorem witness_store_then_load :
    let s := state [(0, 5), (1, 10)] [] []
    let t := (s.setCell 5 10).retire 4
    (5 : Half).toNat < 1024 ∧ s.basePlusOffset 0 0 = (5 : Half).toNat ∧ exec (.writeMem 0 1 0) s = .next t ∧
      noStoreTo (5 : Half).toNat [.loadConst 3 1, .writeMem 9 1 0] t ∧
      (execAll [.loadConst 3 1, .writeMem 9 1 0] t).status ≠ .faulted := by
  refine ⟨by decide, by decide, rfl, ⟨by decide, ?_⟩, by decide⟩
  intro u hu
  cases hu
  exact ⟨by decide, fun _ _ => trivial⟩

theorem witness_step_runs : fresh.status = .ready ∧ decode fresh.prog fresh.pc = .ok (.loadConst 7 4660, 4) := by decide
theorem witness_illegal_opcode :
    (state [] [] [193]).status = .ready ∧ (state [] [] [193]).prog[(state [] [] [193]).pc]? = some 193 ∧
      (193 : Byte) ≠ 192 ∧ (193 : Byte) ≠ 247 ∧ (193 : Byte) ≠ 115 ∧ (193 : Byte) ≠ 83 := by decide
theorem witness_short_four :
    (state [] [] [0xC0, 0, 5]).status = .ready ∧ (state [] [] [0xC0, 0, 5]).prog[0]? = some 192 ∧
      (state [] [] [0xC0, 0, 5]).prog.length < 0 + 4 := by decide
theorem witness_short_five :
    (state [] [] [0x53, 1, 2, 3]).status = .ready ∧ (state [] [] [0x53, 1, 2, 3]).prog[0]? = some 83 ∧
      (state [] [] [0x53, 1, 2, 3]).prog.length < 0 + 5 := by decide
theorem witness_priority_illegal : (state [] [] [0]).prog[0]? = some 0 ∧ legalOpcode 0 = false := by decide
theorem witness_priority_truncated :
    opcodeWidth 0xF7 = some 4 ∧ (state [] [] [0xF7, 0, 0]).prog.length < 0 + 4 := by decide
theorem witness_priority_read : decode [0xF7, 0x03, 0x00, 0x04] 0 = .ok (.readMem 3 1024, 4) ∧ 1024 ≤ (1024 : Half).toNat := by
  decide
theorem witness_priority_write :
    let s := state [(0, 1000)] [] [0x73, 0, 1, 24]
    s.status = .ready ∧ decode s.prog s.pc = .ok (.writeMem 0 1 24, 4) ∧ 1024 ≤ s.basePlusOffset 0 24 := by decide
/-- Vector B12: both addresses of one BIN_OP_LE out of range. -/
theorem witness_priority_both :
    let s := state [(0, 2000), (1, 3000)] [] [0x53, 1, 2, 0, 0]
    s.status = .ready ∧ decode s.prog s.pc = .ok (.binOpLe 1 2 0 0, 5) ∧ 1024 ≤ s.basePlusOffset 0 0 ∧ 1024 ≤ s.indirect 1 := by
  decide
theorem witness_priority_write_only :
    let s := state [(0, 1024)] [] [0x53, 0, 1, 1, 0]
    s.status = .ready ∧ decode s.prog s.pc = .ok (.binOpLe 0 1 1 0, 5) ∧ s.basePlusOffset 1 0 < 1024 ∧
      1024 ≤ s.indirect 0 := by decide
theorem witness_ready_or_not : fresh.status = .ready ∧ broken.status ≠ .ready ∧ State.reset.status ≠ .ready := by decide
theorem witness_faulted : broken.status = .faulted ∧ Reaches broken broken := ⟨rfl, .refl _⟩
theorem witness_reaches : Reaches fresh ((fresh.setReg 7 4660).retire 4) := .step (.refl _) fresh_steps
theorem witness_reads_only :
    let s := state [] [] [0xC0, 0x07, 0x34, 0x12, 0x00]
    let prog' : List Byte := [0xC0, 0x07, 0x34, 0x12, 0xFF]
    prog'.length = s.prog.length ∧ (∀ k, s.pc ≤ k → k < s.pc + fetchLength s → prog'[k]? = s.prog[k]?) ∧
      nextIs (step s) (fun _ => true) = true := by
  refine ⟨by decide, fun k _ hk => ?_, by decide⟩
  have hk : k < 4 := hk
  revert hk
  revert k
  decide
theorem witness_invariant : fresh.Inv ∧ step fresh = .next ((fresh.setReg 7 4660).retire 4) ∧
    ((fresh.setReg 7 4660).retire 4).status ≠ .faulted := ⟨fresh_inv, fresh_steps, by decide⟩
/-- A stream with no LOAD_CONST at any offset, and `P v` meaning that `v` is 0 or 1. -/
theorem witness_values :
    let s := state [(1, 1)] [] [0x73, 0x01, 0x02, 0x09]
    let P : Cell → Prop := fun v => v = 0 ∨ v = 1
    P 0 ∧ P 1 ∧ (∀ off dst value n, decode s.prog off = .ok (.loadConst dst value, n) → P (zextW value)) ∧
      (∀ j, P (s.reg j)) ∧ (∀ a, P (Memory.read s.memory a)) ∧ nextIs (step s) (fun _ => true) = true := by
  refine ⟨.inl rfl, .inr rfl, ?_, ?_, fun _ => .inl rfl, by decide⟩
  · intro off dst value n h
    match off, h with
    | 0, h => cases h
    | 1, h => cases h
    | 2, h => cases h
    | 3, h => cases h
    | k + 4, h =>
      have hd : ([0x73, 0x01, 0x02, 0x09] : List Byte).drop (k + 4) = [] := List.drop_eq_nil_of_le (by simp)
      change decodeHead (([0x73, 0x01, 0x02, 0x09] : List Byte).drop (k + 4)) = _ at h
      rw [hd] at h
      cases h
  · intro j
    change ((State.init [0x73, 0x01, 0x02, 0x09]).setReg 1 1).reg j = 0 ∨
      ((State.init [0x73, 0x01, 0x02, 0x09]).setReg 1 1).reg j = 1
    rw [reg_setReg]
    split
    · exact .inr rfl
    · exact .inl (init_reg _ _)
theorem witness_canonical : Memory.wf [(5, 10), (1023, 1)] = true ∧ Memory.wf [] = true := by decide
theorem witness_run_halts : (run fresh).status = .halted := by decide
theorem witness_stream_in_order :
    let s := { state [] [] (encode (.loadConst 0 5) ++ streamOf [.binOpLe 0 0 0 0]) with pc := 4 }
    s.prog = encode (.loadConst 0 5) ++ streamOf [.binOpLe 0 0 0 0] ∧ s.pc = (encode (.loadConst 0 5)).length ∧
      s.status = (if [Instr.binOpLe 0 0 0 0] = [] then .halted else .ready) := by decide
theorem witness_stream_empty :
    let s := { state [] [] (encode (.loadConst 0 5)) with pc := 4, status := .halted }
    s.prog = encode (.loadConst 0 5) ++ streamOf [] ∧ s.pc = (encode (.loadConst 0 5)).length ∧
      s.status = (if ([] : List Instr) = [] then .halted else .ready) := by decide
theorem witness_single : (1023 : Half).toNat ≤ 1023 := by decide
theorem witness_window : State.reset.status = .halted ∧ 1024 ≤ 1024 := by decide
theorem witness_window_refused : fresh.status ≠ .halted ∧ State.reset.status = .halted ∧ 5 < 6 ∧ 1024 < 1025 := by decide
theorem witness_decodes : decode [0x73, 0xFF, 0xFE, 0xFD, 0x00] 0 = .ok (.writeMem 255 254 253, 4) := by decide
/-- Every clause of the decoder's case table: no byte, an illegal byte, a short stream of each length, and four whole ones. -/
theorem witness_decoder_cases :
    ([0xC0] : List Byte).length ≤ 1 ∧ ([0x52] : List Byte)[0]? = some 82 ∧
    ([0x73, 1, 2] : List Byte).length < 0 + 4 ∧ ([0x53, 1, 2, 3] : List Byte).length < 0 + 5 ∧
    ([0x53, 1, 2, 3, 4] : List Byte)[0 + 4]? = some 4 := by decide
/-- Every clause of the encoder's refusals, each operand one above its field's largest value. -/
theorem witness_overflow : (255 : Nat) < 256 ∧ 65535 < 65536 ∧ (255 : Nat) ≤ 255 := by decide
theorem witness_trace : encodeRecord (.writeMem 0 1 255) = .ok ⟨[0x73, 0, 1, 255], 4, ⟨115, 0, 1, some 255, none⟩⟩ := by decide
theorem witness_program_encoding :
    (∀ r ∈ [Record.loadConst 0 5, .readMem 255 65535], r.wf = true) ∧
    ∃ r ∈ [Record.loadConst 0 5, .loadConst 0 65536], r.wf = false := by decide
theorem witness_placed : decodeTableWord 32 0x123407C0 = some (.loadConst 7 4660) := by decide
theorem witness_unknown_mnemonic :
    (∃ out, assemble [[]] = .ok out) ∧ tokens ['H', 'A', 'L', 'T'] = [['H', 'A', 'L', 'T']] ∧
    ∀ mn : Mnemonic, ['H', 'A', 'L', 'T'] ≠ mn.spelling :=
  ⟨⟨_, rfl⟩, by decide, fun mn => by cases mn <;> decide⟩
/-- Rows A6 and A7: one operand too few, one too many. -/
theorem witness_arity :
    tokens (Mnemonic.loadConst.spelling ++ [' ', '0']) = [Mnemonic.loadConst.spelling, ['0']] ∧
    [['0']].length ≠ Mnemonic.arity .loadConst ∧ [['0'], ['5'], ['6']].length ≠ Mnemonic.arity .loadConst := by decide

end Sys2Proof.Tests
end

namespace Sys2Proof.Machine

/-- R16 by the instruction's own width: the two outcomes of `exec` are the two ways the cursor can go. -/
theorem exec_pc_advances_or_stays (i : Instr) (s : State) :
    ∃ t, exec i s = .next t ∧
      (t.status = .faulted → t.pc = s.pc) ∧ (t.status ≠ .faulted → t.pc = s.pc + i.width) := by
  rcases exec_cases i s with ⟨t, hexec, hwrote, -⟩ | ⟨a, -, -, hexec⟩
  · exact ⟨_, hexec, fun hf => absurd hf (retire_not_faulted t i.width), fun _ => by rw [retire_pc, hwrote.pc]⟩
  · exact ⟨_, hexec, fun _ => raise_pc _ _, fun hf => absurd (raise_status _ _) hf⟩

/-- Settles O9: the widths R16 writes out are `Instr.width` of the four forms. -/
theorem cursorAdvancesByTheWidthOrStays : Obligations.CursorAdvancesByTheWidthOrStays := by
  intro i s
  obtain ⟨t, hexec, hstays, hadvances⟩ := exec_pc_advances_or_stays i s
  refine ⟨t, hexec, hstays, fun hf => (hadvances hf).trans ?_⟩
  cases i <;> rfl

end Sys2Proof.Machine

namespace Sys2Proof.Machine

/-! ### The encoder's answer for one record (R63 to R65) -/

theorem encodeRecord_of_wf {r : Record} (h : r.wf = true) :
    encodeRecord r = .ok ⟨encode r.toInstr, r.toInstr.width, trace r.toInstr⟩ := by
  simp only [encodeRecord, (overflow_eq_none_iff r).mpr h]

theorem encodeRecord_of_not_wf {r : Record} (h : r.wf = false) : ∃ o, encodeRecord r = .error o := by
  cases ho : r.overflow with
  | none => exact absurd ((overflow_eq_none_iff r).mp ho) (by simp [h])
  | some o => exact ⟨o, by simp only [encodeRecord, ho]⟩

/-- The record of an instruction is valid by its type, so the encoder answers the instruction's own encoding. -/
theorem encodeRecord_toRecord (i : Instr) : encodeRecord i.toRecord = .ok ⟨encode i, i.width, trace i⟩ := by
  rw [encodeRecord_of_wf (wf_instr i), toInstr_toRecord]

/-- A number that fits a one-byte field is a byte's value (R54, R64). -/
theorem exists_byte_toNat_eq {v : Nat} (h : v ≤ 255) : ∃ b : Byte, b.toNat = v :=
  ⟨BitVec.ofNat 8 v, Nat.mod_eq_of_lt (Nat.lt_succ_of_le h)⟩

/-- A number that fits a two-byte field is a 16-bit word's value (R54, R64). -/
theorem exists_half_toNat_eq {v : Nat} (h : v ≤ 65535) : ∃ w : Half, w.toNat = v :=
  ⟨BitVec.ofNat 16 v, Nat.mod_eq_of_lt (Nat.lt_succ_of_le h)⟩

/-- The bytes of a 16-bit operand as numbers, low byte first (R65). -/
theorem map_toNat_bytes_half (v : Half) :
    [lowByte v, highByte v].map BitVec.toNat = [v.toNat % 256, v.toNat / 256] := by
  simp only [List.map, lowByte_toNat, highByte_toNat]

/-- Settles O40: a record whose operands fit is the record of an instruction, and is encoded as that instruction. -/
theorem encoderGivesExactlyTheBytesOfTheLayout : Obligations.EncoderGivesExactlyTheBytesOfTheLayout := by
  refine ⟨fun dst value hdst hvalue => ?_, fun dst addr hdst haddr => ?_,
    fun base src offset hbase hsrc hoffset => ?_, fun dst lhs rhsBase rhsOffset hdst hlhs hbase hoffset => ?_⟩
  · obtain ⟨dst, rfl⟩ := exists_byte_toNat_eq hdst
    obtain ⟨value, rfl⟩ := exists_half_toNat_eq hvalue
    exact ⟨_, encodeRecord_toRecord (.loadConst dst value),
      congrArg ([192, dst.toNat] ++ ·) (map_toNat_bytes_half value), rfl⟩
  · obtain ⟨dst, rfl⟩ := exists_byte_toNat_eq hdst
    obtain ⟨addr, rfl⟩ := exists_half_toNat_eq haddr
    exact ⟨_, encodeRecord_toRecord (.readMem dst addr),
      congrArg ([247, dst.toNat] ++ ·) (map_toNat_bytes_half addr), rfl⟩
  · obtain ⟨base, rfl⟩ := exists_byte_toNat_eq hbase
    obtain ⟨src, rfl⟩ := exists_byte_toNat_eq hsrc
    obtain ⟨offset, rfl⟩ := exists_byte_toNat_eq hoffset
    exact ⟨_, encodeRecord_toRecord (.writeMem base src offset), rfl, rfl⟩
  · obtain ⟨dst, rfl⟩ := exists_byte_toNat_eq hdst
    obtain ⟨lhs, rfl⟩ := exists_byte_toNat_eq hlhs
    obtain ⟨rhsBase, rfl⟩ := exists_byte_toNat_eq hbase
    obtain ⟨rhsOffset, rfl⟩ := exists_byte_toNat_eq hoffset
    exact ⟨_, encodeRecord_toRecord (.binOpLe dst lhs rhsBase rhsOffset), rfl, rfl⟩

/-! ### The encoding of a whole program (R66) -/

theorem streamOf_cons (i : Instr) (is : List Instr) : streamOf (i :: is) = encode i ++ streamOf is :=
  List.flatMap_cons

theorem length_streamOf (is : List Instr) : (streamOf is).length = (is.map Instr.width).sum := by
  simp only [streamOf, List.length_flatMap, length_encode]

/-- What the program encoder does with a record that fits: its answer heads the answer for the rest, an error of the rest
is the whole's. -/
theorem encodeProgramFrom_cons_of_wf {r : Record} (h : r.wf = true) (n : Nat) (rs : List Record) :
    encodeProgramFrom n (r :: rs) = (encodeProgramFrom (n + 1) rs).map fun out =>
      (encode r.toInstr ++ out.1, trace r.toInstr :: out.2) := by
  simp only [encodeProgramFrom, encodeRecord_of_wf h]
  cases encodeProgramFrom (n + 1) rs <;> rfl

theorem encodeProgramFrom_cons_of_not_wf {r : Record} (h : r.wf = false) (n : Nat) (rs : List Record) :
    ∃ o, encodeProgramFrom n (r :: rs) = .error o := by
  obtain ⟨o, ho⟩ := encodeRecord_of_not_wf h
  exact ⟨(n, o), by simp only [encodeProgramFrom, ho]⟩

theorem encodeProgramFrom_of_all_wf {rs : List Record} (h : ∀ r ∈ rs, r.wf = true) (n : Nat) :
    encodeProgramFrom n rs = .ok (streamOf (rs.map Record.toInstr), rs.map fun r => trace r.toInstr) := by
  induction rs generalizing n with
  | nil => rfl
  | cons r rs ih =>
    obtain ⟨hr, hrs⟩ := List.forall_mem_cons.mp h
    rw [encodeProgramFrom_cons_of_wf hr, ih hrs, List.map_cons, streamOf_cons]
    rfl

theorem encodeProgramFrom_of_exists_not_wf {rs : List Record} (h : ∃ r ∈ rs, r.wf = false) (n : Nat) :
    ∃ o, encodeProgramFrom n rs = .error o := by
  induction rs generalizing n with
  | nil => simp at h
  | cons r rs ih =>
    cases hr : r.wf with
    | false => exact encodeProgramFrom_cons_of_not_wf hr n rs
    | true =>
      have hrs : ∃ r ∈ rs, r.wf = false := by simpa [hr] using h
      obtain ⟨o, ho⟩ := ih hrs (n + 1)
      exact ⟨o, by rw [encodeProgramFrom_cons_of_wf hr, ho]; rfl⟩

/-- Settles O42, by induction on the list of records, from any index of the first one. -/
theorem programEncodingIsConcatenationOrNothing : Obligations.ProgramEncodingIsConcatenationOrNothing := by
  refine fun rs => ⟨fun h => ⟨encodeProgramFrom_of_all_wf h 0, ?_⟩, fun h => encodeProgramFrom_of_exists_not_wf h 0⟩
  rw [length_streamOf, List.map_map]
  rfl

end Sys2Proof.Machine

namespace Sys2Proof.Machine

/-- A body that leaves `pc`, fault record and stream alone completes as R16 and R106 say. -/
theorem completedBy_retire {s t : State} (hpc : t.pc = s.pc) (hfault : t.fault = s.fault) (hprog : t.prog = s.prog)
    (n : Nat) : completedBy s (t.retire n) n :=
  ⟨by rw [retire_pc, hpc], by rw [retire_status, hpc, hprog], hfault, hprog⟩

/-- What an instruction leaves unchanged whose body is one register write: every other register, and all of memory. -/
theorem setReg_retire_frame (s : State) (d : Byte) (v : Cell) (n : Nat) :
    registersKeptBut s ((s.setReg d v).retire n) d ∧ memoryKept s ((s.setReg d v).retire n) :=
  ⟨fun _ hne => by rw [retire_reg, reg_setReg_of_ne s d v hne], fun _ => by rw [retire_memory, setReg_memory]⟩

/-- Settles O3: the state LOAD_CONST answers is one register write, retired by its four bytes. -/
theorem loadConstWritesItsConstant : Obligations.LoadConstWritesItsConstant := by
  intro dst value s
  have hexec : exec (.loadConst dst value) s = .next ((s.setReg dst (zextW value)).retire 4) :=
    execLoadConst_eq dst value s
  have hvalue : (((s.setReg dst (zextW value)).retire 4).reg dst).toNat = value.toNat := by
    rw [retire_reg, reg_setReg_same, toNat_zextW]
  obtain ⟨hregs, hmem⟩ := setReg_retire_frame s dst (zextW value) 4
  exact ⟨rfl, _, hexec, hvalue, hregs, hmem, completedBy_retire rfl rfl rfl 4⟩

end Sys2Proof.Machine

namespace Sys2Proof.Machine

/-- Taking a fault leaves the state R127 describes. -/
theorem faultedWith_raise (s : State) (kind : Fault) (info : Nat) : faultedWith s (s.raise ⟨kind, info⟩) kind info :=
  ⟨raise_fault s _, raise_status s _, raise_registers s _, raise_memory s _, raise_pc s _, raise_prog s _⟩

/-- What an instruction leaves unchanged whose body is one store: every other cell, and all registers. -/
theorem setCell_retire_frame (s : State) (a : Nat) (v : Cell) (n : Nat) :
    memoryKeptBut s ((s.setCell a v).retire n) a ∧ registersKept s ((s.setCell a v).retire n) :=
  ⟨fun _ hne => by rw [retire_memory, setCell_memory, Memory.read_write_of_ne s.memory v hne],
    fun _ => by rw [retire_reg, setCell_reg]⟩

/-- Settles O4: below the memory's size READ_MEM is one register write of the cell it reads, from there on one fault. -/
theorem readMemLoadsTheAddressedCell : Obligations.ReadMemLoadsTheAddressedCell := by
  refine fun dst addr s => ⟨rfl, fun hlt => ?completes, fun hge => ?faults⟩
  case completes =>
    have hexec : exec (.readMem dst addr) s =
        .next ((s.setReg dst (Memory.read s.memory addr.toNat)).retire 4) := execReadMem_of_lt dst addr s hlt
    obtain ⟨hregs, hmem⟩ := setReg_retire_frame s dst (Memory.read s.memory addr.toNat) 4
    exact ⟨_, hexec, reg_setReg_same s dst _, hregs, hmem, completedBy_retire rfl rfl rfl 4⟩
  case faults =>
    exact ⟨_, execReadMem_of_ge dst addr s hge, faultedWith_raise s .outOfRange addr.toNat⟩

/-- Settles O5: below the memory's size WRITE_MEM is one store at the exact sum, from there on one fault. -/
theorem writeMemStoresAtBasePlusOffset : Obligations.WriteMemStoresAtBasePlusOffset := by
  refine fun base src offset s => ⟨rfl, rfl, fun hlt => ?completes, fun hge => ?faults⟩
  case completes =>
    have hexec : exec (.writeMem base src offset) s =
        .next ((s.setCell (s.basePlusOffset base offset) (s.reg src)).retire 4) :=
      execWriteMem_of_lt base src offset s hlt
    obtain ⟨hmem, hregs⟩ := setCell_retire_frame s (s.basePlusOffset base offset) (s.reg src) 4
    exact ⟨_, hexec, Memory.read_write_same s.memory _ _, hmem, hregs, completedBy_retire rfl rfl rfl 4⟩
  case faults =>
    exact ⟨_, execWriteMem_of_ge base src offset s hge,
      faultedWith_raise s .outOfRange (s.basePlusOffset base offset)⟩

end Sys2Proof.Machine

namespace Sys2Proof.Machine

/-! ### The cursor and the status: what a step keeps of them, and where a run ends (R100, R106, R109, R110) -/

/-- Decoding takes as many bytes as the instruction's width, and they are all there (R63, R68). -/
theorem decodeHead_ok {bytes : List Byte} {i : Instr} {n : Nat} (h : decodeHead bytes = .ok (i, n)) :
    n = i.width ∧ i.width ≤ bytes.length := by
  revert h
  fun_cases decodeHead bytes <;> simp only [Except.ok.injEq, Prod.mk.injEq, reduceCtorEq, false_imp_iff]
  all_goals
    rintro ⟨rfl, rfl⟩
    exact ⟨rfl, Nat.le_add_left _ _⟩

/-- An instruction that fetch gives stands whole in the stream: R103 faults one that would end beyond it. -/
theorem fetch_ok_fits {s : State} {i : Instr} (h : s.fetch = .ok i) : s.pc + i.width ≤ s.prog.length := by
  unfold State.fetch decode at h
  split at h
  next j n hdecode =>
    cases h
    obtain ⟨-, hwidth⟩ := decodeHead_ok hdecode
    have hpos : 4 ≤ i.width := width_pos i
    rw [List.length_drop] at hwidth
    omega
  next => cases h

/-- Everything a step can do to the state: retire what the body of an instruction of the stream wrote, or take a
fault. -/
theorem step_retires_or_raises {s t : State} (h : step s = .next t) :
    (∃ i w, Wrote i s w ∧ s.pc + i.width ≤ s.prog.length ∧ t = w.retire i.width) ∨ ∃ e, t = s.raise e := by
  obtain ⟨-, ⟨i, hfetch, hexec⟩ | ⟨e, -, rfl⟩⟩ := step_next_cases h
  · rcases exec_cases i s with ⟨w, hw, hwrote, -⟩ | ⟨a, -, -, ha⟩
    · exact .inl ⟨i, w, hwrote, fetch_ok_fits hfetch, by simpa [hw] using hexec.symm⟩
    · exact .inr ⟨_, by simpa [ha] using hexec.symm⟩
  · exact .inr ⟨e, rfl⟩

/-- A step applies in every `Ready` state (R101). -/
theorem exists_step_of_ready {s : State} (hs : s.status = .ready) : ∃ t, step s = .next t := by
  cases hf : s.fetch with
  | error e => exact ⟨_, step_of_fetch_error hs hf⟩
  | ok i =>
    rw [step_of_fetch_ok hs hf]
    rcases exec_cases i s with ⟨w, hw, -, -⟩ | ⟨a, -, -, ha⟩
    · exact ⟨_, hw⟩
    · exact ⟨_, ha⟩

/-! ### R20's function -/

theorem statusOf_of_fault_eq_none {s : State} (h : s.fault = none) :
    s.statusOf = if s.pc = s.prog.length then .halted else .ready := by
  simp [State.statusOf, h]

theorem statusOf_of_fault_ne_none {s : State} (h : s.fault ≠ none) : s.statusOf = .faulted := if_pos h

theorem statusOf_eq_halted_iff (s : State) : s.statusOf = .halted ↔ s.fault = none ∧ s.pc = s.prog.length := by
  by_cases h : s.fault = none
  · simp [statusOf_of_fault_eq_none h, h]
  · simp [statusOf_of_fault_ne_none h, h]

theorem statusOf_eq_ready_iff (s : State) : s.statusOf = .ready ↔ s.fault = none ∧ s.pc ≠ s.prog.length := by
  by_cases h : s.fault = none
  · simp [statusOf_of_fault_eq_none h, h]
  · simp [statusOf_of_fault_ne_none h, h]

/-! ### The part of the invariant that R106 speaks of -/

/-- The cursor is within the stream and the status is R20's function: the part of `State.Inv` a run's end depends on. -/
structure CursorInv (s : State) : Prop where
  pc_le : s.pc ≤ s.prog.length
  status_eq : s.status = s.statusOf

theorem State.Inv.cursorInv {s : State} (h : s.Inv) : CursorInv s := ⟨h.pc_le, h.status_eq⟩

theorem CursorInv.halted_iff {s : State} (h : CursorInv s) :
    s.status = .halted ↔ s.fault = none ∧ s.pc = s.prog.length := by
  rw [h.status_eq, statusOf_eq_halted_iff]

theorem CursorInv.ready_iff {s : State} (h : CursorInv s) :
    s.status = .ready ↔ s.fault = none ∧ s.pc < s.prog.length := by
  rw [h.status_eq, statusOf_eq_ready_iff, h.pc_le.lt_iff_ne]

/-- A step runs in a state with no fault, so retiring sets R20's status, and the instruction fetched ends within the
stream. -/
theorem step_keeps_cursorInv {s t : State} (h : CursorInv s) (hstep : step s = .next t) : CursorInv t := by
  obtain ⟨hready, -⟩ := step_next_cases hstep
  rcases step_retires_or_raises hstep with ⟨i, w, hwrote, hfits, rfl⟩ | ⟨e, rfl⟩
  · have hfault : (w.retire i.width).fault = none := hwrote.fault.trans (h.ready_iff.mp hready).1
    exact ⟨by rw [retire_pc, retire_prog, hwrote.pc, hwrote.prog]; exact hfits,
      (statusOf_of_fault_eq_none hfault).symm⟩
  · exact ⟨h.pc_le, (statusOf_of_fault_ne_none (Option.some_ne_none _)).symm⟩

/-- Settles O26: the state after a step satisfies the cursor's part of the invariant, and that part gives all three. -/
theorem haltedExactlyAtTheEndOfTheStream : Obligations.HaltedExactlyAtTheEndOfTheStream := by
  intro s t hinv hstep
  have ht : CursorInv t := step_keeps_cursorInv hinv.cursorInv hstep
  exact ⟨ht.pc_le, ht.halted_iff, ht.ready_iff⟩

/-! ### Runs -/

/-- A step put before the steps of a run (`Reaches.step` puts it after them). -/
theorem Reaches.head {s t u : State} (hstep : Machine.step s = .next t) (h : Reaches t u) : Reaches s u := by
  induction h with
  | refl => exact .step (.refl s) hstep
  | step _ hlast ih => exact .step ih hlast

theorem reaches_runFor (n : Nat) (s : State) : Reaches s (runFor n s) := by
  induction n generalizing s with
  | zero => exact .refl s
  | succ n ih =>
    by_cases hs : s.status = .ready
    · obtain ⟨t, hstep⟩ := exists_step_of_ready hs
      rw [runFor_succ_of_next n hstep]
      exact .head hstep (ih t)
    · rw [runFor_of_not_ready hs]
      exact .refl s

/-- R109: a step that does not fault raises the cursor by the width of an instruction, at least four bytes. -/
theorem step_pc_advances_or_faults {s t : State} (hstep : step s = .next t) :
    (s.pc + 4 ≤ t.pc ∧ t.prog = s.prog) ∨ t.status = .faulted := by
  rcases step_retires_or_raises hstep with ⟨i, w, hwrote, -, rfl⟩ | ⟨e, rfl⟩
  · have hwidth : 4 ≤ i.width := width_pos i
    exact .inl ⟨by rw [retire_pc, hwrote.pc]; omega, hwrote.prog⟩
  · exact .inr rfl

/-- A run is over once its steps could have carried the cursor past the end of the stream. -/
theorem runFor_not_ready (n : Nat) {s : State} (h : CursorInv s) (hn : s.prog.length < s.pc + 4 * n) :
    (runFor n s).status ≠ .ready := by
  induction n generalizing s with
  | zero => exact absurd hn (Nat.not_lt.mpr h.pc_le)
  | succ n ih =>
    by_cases hs : s.status = .ready
    · obtain ⟨t, hstep⟩ := exists_step_of_ready hs
      rw [runFor_succ_of_next n hstep]
      rcases step_pc_advances_or_faults hstep with ⟨hpc, hprog⟩ | hfaulted
      · exact ih (step_keeps_cursorInv h hstep) (by rw [hprog]; omega)
      · have ht : t.status ≠ .ready := by simp [hfaulted]
        rwa [runFor_of_not_ready ht]
    · rwa [runFor_of_not_ready hs]

/-- The bound of `run` is enough for every cursor (R109). -/
theorem length_lt_stepBound (s : State) : s.prog.length < s.pc + 4 * stepBound s := by
  unfold stepBound Config.lenMin
  omega

theorem status_eq_halted_or_faulted {s : State} (h : s.status ≠ .ready) :
    s.status = .halted ∨ s.status = .faulted := by
  cases hs : s.status with
  | ready => exact absurd hs h
  | halted => exact .inl rfl
  | faulted => exact .inr rfl

/-- Settles O29, by induction on the fuel of `run`: each step that does not fault raises the cursor, which stays within
the stream. -/
theorem everyRunEnds : Obligations.EveryRunEnds := by
  intro s hinv
  have hended : (run s).status ≠ .ready := runFor_not_ready (stepBound s) hinv.cursorInv (length_lt_stepBound s)
  exact ⟨reaches_runFor (stepBound s) s, status_eq_halted_or_faulted hended⟩

end Sys2Proof.Machine

namespace Sys2Proof.Machine

/-- Settles O10, by the two outcomes of `exec`: one that retires had every data address in range, one that faults names an
address that is not. -/
theorem outOfRangeExactlyOnAddressesOf1024OrMore : Obligations.OutOfRangeExactlyOnAddressesOf1024OrMore := by
  intro i s
  rcases exec_cases i s with ⟨t, hexec, hwrote, hlt⟩ | ⟨a, hmem, hge, hexec⟩
  case inl =>
    have hcompletes : (t.retire i.width).status ≠ .faulted := retire_not_faulted t i.width
    have hinRange : ¬ ∃ a ∈ dataAddresses s i, 1024 ≤ a := fun ⟨a, ha, hge⟩ => Nat.not_lt.mpr hge (hlt a ha)
    exact ⟨_, hexec, iff_of_false hcompletes hinRange, fun hf => absurd hf hcompletes, fun _ => hwrote.fault⟩
  case inr =>
    have hfaults : (s.raise ⟨.outOfRange, a⟩).status = .faulted := raise_status s _
    exact ⟨_, hexec, iff_of_true hfaults ⟨a, hmem, hge⟩, fun _ => ⟨a, hmem, hge, raise_fault s _⟩,
      fun hf => absurd hfaults hf⟩

end Sys2Proof.Machine

namespace Sys2Proof.Machine

/-! ### Fetch of an opcode byte that is none of the four (R59, R102, R122) -/

theorem decodeHead_of_illegal {op : Byte} (rest : List Byte)
    (hload : op ≠ Config.opcLoadConst) (hread : op ≠ Config.opcReadMem)
    (hwrite : op ≠ Config.opcWriteMem) (hbin : op ≠ Config.opcBinOpLe) :
    decodeHead (op :: rest) = .error (.unknownOpcode op) := by
  simp only [decodeHead, if_neg hload, if_neg hread, if_neg hwrite, if_neg hbin]

/-- The decoder reads the byte at its offset first, and the bytes after it as operands. -/
theorem decode_of_getElem? {bytes : List Byte} {off : Nat} {op : Byte} (h : bytes[off]? = some op) :
    decode bytes off = decodeHead (op :: bytes.drop (off + 1)) := by
  obtain ⟨hlt, hop⟩ := List.getElem?_eq_some_iff.mp h
  rw [decode, List.drop_eq_getElem_cons hlt, hop]

theorem fetch_of_decode_error {s : State} {e : DecodeError} (h : decode s.prog s.pc = .error e) :
    s.fetch = .error (raisedOf e) := by
  rw [State.fetch, h]

/-- Settles O15: the decoder refuses the byte whatever follows it, and the step takes the fault that fetch raises. -/
theorem illegalOpcodeTakesUnknownOpcode : Obligations.IllegalOpcodeTakesUnknownOpcode := by
  intro s op hready hbyte hload hread hwrite hbin
  have hdecode : decode s.prog s.pc = .error (.unknownOpcode op) := by
    rw [decode_of_getElem? hbyte, decodeHead_of_illegal _ hload hread hwrite hbin]
  exact ⟨_, step_of_fetch_error hready (fetch_of_decode_error hdecode), faultedWith_raise s .unknownOpcode op.toNat⟩

end Sys2Proof.Machine

namespace Sys2Proof.Machine

/-! ### The decoder's result on any bytes (R68, R70) -/

/-- Decoding takes the bytes of the instruction's encoding from the front, whatever follows them. -/
theorem decodeHead_encode_append (i : Instr) (after : List Byte) :
    decodeHead (encode i ++ after) = .ok (i, i.width) := by
  cases i with
  | loadConst dst value => simp [encode, decodeHead, Instr.width]
  | readMem dst addr => simp [encode, decodeHead, Instr.width]
  | writeMem base src offset => rfl
  | binOpLe dst lhs rhsBase rhsOffset => rfl

/-- Whatever decodes has the bytes of its encoding at the front. -/
theorem take_of_decodeHead_ok {bytes : List Byte} {i : Instr} {n : Nat} (h : decodeHead bytes = .ok (i, n)) :
    bytes.take n = encode i := by
  revert h
  fun_cases decodeHead bytes <;> simp only [Except.ok.injEq, Prod.mk.injEq, reduceCtorEq, false_imp_iff]
  all_goals
    rintro ⟨rfl, rfl⟩
    simp_all [encode]

/-- Decode is the inverse of encode: an instruction is decoded exactly where its encoding stands (R70). -/
theorem decode_eq_ok_iff {bytes : List Byte} {off : Nat} {i : Instr} {n : Nat} :
    decode bytes off = .ok (i, n) ↔ n = i.width ∧ (bytes.drop off).take n = encode i := by
  constructor
  · intro h
    exact ⟨(decodeHead_ok h).1, take_of_decodeHead_ok h⟩
  · rintro ⟨rfl, htake⟩
    rw [decode, ← List.take_append_drop i.width (bytes.drop off), htake, decodeHead_encode_append]

/-- An instruction decoded at an offset ends within the bytes. -/
theorem decode_ok_fits {bytes : List Byte} {off : Nat} {i : Instr} {n : Nat} (h : decode bytes off = .ok (i, n)) :
    off + n ≤ bytes.length := by
  obtain ⟨rfl, hle⟩ := decodeHead_ok h
  have hpos : 4 ≤ i.width := width_pos i
  rw [List.length_drop] at hle
  omega

theorem decode_encode_between (i : Instr) (before after : List Byte) :
    decode (before ++ encode i ++ after) before.length = .ok (i, i.width) := by
  rw [decode, List.append_assoc, List.drop_left, decodeHead_encode_append]

/-- Settles O36: decode and encode are inverse on the bytes at the offset. -/
theorem decodeAndEncodeAreInverse : Obligations.DecodeAndEncodeAreInverse := by
  refine ⟨decode_encode_between, fun bytes off i n h => ?_⟩
  obtain ⟨hwidth, hbytes⟩ := decode_eq_ok_iff.mp h
  exact ⟨hwidth, decode_ok_fits h, hbytes⟩

/-! ### The decoder by the width its opcode byte announces (R50, R59, R68) -/

theorem opcodeWidth_eq_none_iff {op : Byte} :
    opcodeWidth op = none ↔ op ≠ 192 ∧ op ≠ 247 ∧ op ≠ 115 ∧ op ≠ 83 := by
  unfold opcodeWidth
  split_ifs <;> simp_all

theorem length_lt_three_of_ne {l : List Byte} (h : ∀ a b c rest, l ≠ a :: b :: c :: rest) : l.length < 3 := by
  rcases l with _ | ⟨a, _ | ⟨b, _ | ⟨c, rest⟩⟩⟩
  · simp
  · simp
  · simp
  · exact absurd rfl (h a b c rest)

theorem length_lt_four_of_ne {l : List Byte} (h : ∀ a b c d rest, l ≠ a :: b :: c :: d :: rest) : l.length < 4 := by
  cases l with
  | nil => simp
  | cons a l => exact Nat.succ_lt_succ (length_lt_three_of_ne fun b c d rest hl => h a b c d rest (by rw [hl]))

/-- Everything the decoder can answer where a byte stands: it refuses an opcode byte that announces no width, it finds too
few bytes for the width, or it gives an instruction of that width. -/
theorem decodeHead_cons_cases (op : Byte) (rest : List Byte) :
    (opcodeWidth op = none ∧ decodeHead (op :: rest) = .error (.unknownOpcode op)) ∨
    (∃ n, opcodeWidth op = some n ∧ rest.length + 1 < n ∧
      decodeHead (op :: rest) = .error (.truncatedInstruction (rest.length + 1))) ∨
    ∃ i, opcodeWidth op = some i.width ∧ decodeHead (op :: rest) = .ok (i, i.width) := by
  generalize hbytes : op :: rest = bytes
  fun_cases decodeHead bytes
  all_goals cases hbytes
  case case2 | case4 | case6 | case8 => exact .inr (.inr ⟨_, rfl, rfl⟩)
  case case3 | case5 | case7 =>
    exact .inr (.inl ⟨4, rfl, Nat.succ_lt_succ (length_lt_three_of_ne (by assumption)), rfl⟩)
  case case9 =>
    exact .inr (.inl ⟨5, rfl, Nat.succ_lt_succ (length_lt_four_of_ne (by assumption)), rfl⟩)
  case case10 hload hread hwrite hbin =>
    exact .inl ⟨opcodeWidth_eq_none_iff.mpr ⟨hload, hread, hwrite, hbin⟩, rfl⟩

/-! The three outcomes at an offset of a byte sequence, each by its own condition. -/

section AtOffset
variable {bytes : List Byte} {off n : Nat} {op : Byte} (hop : bytes[off]? = some op)
include hop

/-- Everything the decoder can answer at the offset of a byte. -/
theorem decode_cases :
    (opcodeWidth op = none ∧ decode bytes off = .error (.unknownOpcode op)) ∨
    (∃ n, opcodeWidth op = some n ∧ bytes.length < off + n ∧
      decode bytes off = .error (.truncatedInstruction (bytes.length - off))) ∨
    ∃ i, opcodeWidth op = some i.width ∧ decode bytes off = .ok (i, i.width) := by
  obtain ⟨hlt, -⟩ := List.getElem?_eq_some_iff.mp hop
  have hcases := decodeHead_cons_cases op (bytes.drop (off + 1))
  have hcount : (bytes.drop (off + 1)).length + 1 = bytes.length - off := by rw [List.length_drop]; omega
  rw [← decode_of_getElem? hop, hcount] at hcases
  rcases hcases with hillegal | ⟨n, hn, hshort, hdecode⟩ | hwhole
  · exact .inl hillegal
  · exact .inr (.inl ⟨n, hn, by omega, hdecode⟩)
  · exact .inr (.inr hwhole)

theorem decode_of_illegal (h : opcodeWidth op = none) : decode bytes off = .error (.unknownOpcode op) := by
  rcases decode_cases hop with ⟨-, hdecode⟩ | ⟨n, hn, -⟩ | ⟨i, hi, -⟩
  · exact hdecode
  · simp [h] at hn
  · simp [h] at hi

theorem decode_of_short (h : opcodeWidth op = some n) (hshort : bytes.length < off + n) :
    decode bytes off = .error (.truncatedInstruction (bytes.length - off)) := by
  rcases decode_cases hop with ⟨hnone, -⟩ | ⟨n, -, -, hdecode⟩ | ⟨i, hi, hdecode⟩
  · simp [h] at hnone
  · exact hdecode
  · obtain rfl : n = i.width := by simpa [h] using hi
    exact absurd (decode_ok_fits hdecode) (Nat.not_le.mpr hshort)

end AtOffset

theorem decode_of_length_le {bytes : List Byte} {off : Nat} (h : bytes.length ≤ off) :
    decode bytes off = .error (.truncatedInstruction 0) := by
  rw [decode, List.drop_eq_nil_of_le h]
  rfl

/-! ### Settling the decoder's statements -/

theorem drop_eq_cons_of_getElem? {bytes : List Byte} {k : Nat} {b : Byte} (h : bytes[k]? = some b) :
    bytes.drop k = b :: bytes.drop (k + 1) := by
  rw [List.drop_eq_getElem?_toList_append, h]
  rfl

/-- Settles O38: the refusals by the width the opcode byte announces, the rest by the bytes that follow it. -/
theorem decoderFollowsItsCaseTable : Obligations.DecoderFollowsItsCaseTable := by
  refine fun bytes off => ⟨decode_of_length_le, fun op hop => ⟨fun hload hread hwrite hbin => ?illegal,
    fun h hshort => ?short4, fun h hshort => ?short5, fun b1 b2 b3 h1 h2 h3 => ?whole⟩⟩
  case illegal => exact decode_of_illegal hop (opcodeWidth_eq_none_iff.mpr ⟨hload, hread, hwrite, hbin⟩)
  case short4 =>
    have hwidth : opcodeWidth op = some 4 := by rcases h with rfl | rfl | rfl <;> rfl
    exact decode_of_short hop hwidth hshort
  case short5 =>
    have hwidth : opcodeWidth op = some 5 := by rw [h]; rfl
    exact decode_of_short hop hwidth hshort
  case whole =>
    have hbytes : decode bytes off = decodeHead (op :: b1 :: b2 :: b3 :: bytes.drop (off + 4)) := by
      rw [decode_of_getElem? hop, drop_eq_cons_of_getElem? h1, drop_eq_cons_of_getElem? h2,
        drop_eq_cons_of_getElem? h3]
    rw [hbytes]
    refine ⟨?_, ?_, ?_, fun b4 h4 => ?_⟩
    · rintro rfl; rfl
    · rintro rfl; rfl
    · rintro rfl; rfl
    · rintro rfl
      rw [drop_eq_cons_of_getElem? h4]
      rfl

/-- Settles O37, by running the decoder on the four words. -/
theorem wordsOfTheLayoutTableDecode : Obligations.WordsOfTheLayoutTableDecode := ⟨rfl, rfl, rfl, rfl⟩

end Sys2Proof.Machine

namespace Sys2Proof.Machine

/-! ### Fetch is the decoder at the cursor (R100) -/

theorem fetch_of_decode_ok {s : State} {i : Instr} {n : Nat} (h : decode s.prog s.pc = .ok (i, n)) :
    s.fetch = .ok i := by
  rw [State.fetch, h]

theorem decode_of_fetch_ok {s : State} {i : Instr} (h : s.fetch = .ok i) :
    decode s.prog s.pc = .ok (i, i.width) := by
  unfold State.fetch at h
  split at h
  next j n hdecode =>
    cases h
    obtain ⟨rfl, -⟩ := decodeHead_ok hdecode
    exact hdecode
  next => cases h

theorem decode_of_fetch_error {s : State} {e : Raised} (h : s.fetch = .error e) :
    ∃ d, decode s.prog s.pc = .error d ∧ e = raisedOf d := by
  unfold State.fetch at h
  split at h
  next => cases h
  next d hdecode =>
    cases h
    exact ⟨d, hdecode, rfl⟩

theorem step_of_decode_ok {s : State} {i : Instr} {n : Nat} (hready : s.status = .ready)
    (h : decode s.prog s.pc = .ok (i, n)) : step s = exec i s :=
  step_of_fetch_ok hready (fetch_of_decode_ok h)

theorem step_of_decode_error {s : State} {d : DecodeError} (hready : s.status = .ready)
    (h : decode s.prog s.pc = .error d) : step s = .next (s.raise (raisedOf d)) :=
  step_of_fetch_error hready (fetch_of_decode_error h)

/-! ### What an instruction that answers `t` did, and what it left as it was -/

section ExecNext
variable {i : Instr} {s t : State} (h : exec i s = .next t)
include h

/-- The state is what the body wrote, retired, or the fault of a data address out of range. -/
theorem exec_next_cases :
    (∃ w, Wrote i s w ∧ t = w.retire i.width) ∨
      ∃ a ∈ dataAddresses s i, Config.memSize ≤ a ∧ t = s.raise ⟨.outOfRange, a⟩ := by
  rcases exec_cases i s with ⟨w, hw, hwrote, -⟩ | ⟨a, hmem, hge, ha⟩
  · exact .inl ⟨w, hwrote, by simpa [hw] using h.symm⟩
  · exact .inr ⟨a, hmem, hge, by simpa [ha] using h.symm⟩

theorem exec_reg_of_not_written {j : Byte} (hj : writtenRegister i ≠ some j) : t.reg j = s.reg j := by
  rcases exec_next_cases h with ⟨w, hwrote, rfl⟩ | ⟨a, -, -, rfl⟩
  · exact hwrote.reg j hj
  · rfl

theorem exec_cell_of_not_stored {a : Nat} (ha : storedAddress s i ≠ some a) :
    Memory.read t.memory a = Memory.read s.memory a := by
  rcases exec_next_cases h with ⟨w, hwrote, rfl⟩ | ⟨b, -, -, rfl⟩
  · exact hwrote.cell a ha
  · rfl

theorem exec_keeps_prog : t.prog = s.prog := by
  rcases exec_next_cases h with ⟨w, hwrote, rfl⟩ | ⟨a, -, -, rfl⟩
  · exact hwrote.prog
  · rfl

/-- An instruction that does not fault completes as R16 and R106 say. -/
theorem exec_completedBy (hcompletes : t.status ≠ .faulted) : completedBy s t i.width := by
  rcases exec_next_cases h with ⟨w, hwrote, rfl⟩ | ⟨a, -, -, rfl⟩
  · exact completedBy_retire hwrote.pc hwrote.fault hwrote.prog i.width
  · exact absurd (raise_status _ _) hcompletes

end ExecNext

theorem exists_exec_next (i : Instr) (s : State) : ∃ t, exec i s = .next t := by
  rcases exec_cases i s with ⟨w, hw, -⟩ | ⟨a, -, -, ha⟩
  · exact ⟨_, hw⟩
  · exact ⟨_, ha⟩

/-! ### Every step keeps the invariant -/

/-- The fault that fetch raises at a byte of the stream is true of the state (R21, R122, R123). -/
theorem faultJustified_of_decode_error {s : State} {d : DecodeError} (hpc : s.pc < s.prog.length)
    (h : decode s.prog s.pc = .error d) :
    faultJustified (s.raise (raisedOf d)) ⟨(raisedOf d).kind, s.pc, (raisedOf d).info⟩ := by
  have hop : s.prog[s.pc]? = some s.prog[s.pc] := List.getElem?_eq_getElem hpc
  refine ⟨rfl, ?_⟩
  rcases decode_cases hop with ⟨hnone, hdecode⟩ | ⟨n, hn, hshort, hdecode⟩ | ⟨i, -, hdecode⟩
  all_goals
    rw [hdecode] at h
    cases h
  · exact ⟨_, hop, by rw [legalOpcode, hnone]; rfl, rfl⟩
  · exact ⟨_, n, hop, hn, hshort, rfl⟩

/-- An instruction's data addresses depend on the registers alone. -/
theorem dataAddresses_raise (s : State) (e : Raised) (i : Instr) : dataAddresses (s.raise e) i = dataAddresses s i := by
  cases i <;> rfl

theorem faultJustified_of_dataAddress {s : State} {i : Instr} {a : Nat} (h : s.fetch = .ok i)
    (hmem : a ∈ dataAddresses s i) (hge : Config.memSize ≤ a) :
    faultJustified (s.raise ⟨.outOfRange, a⟩) ⟨.outOfRange, s.pc, a⟩ :=
  ⟨rfl, i, i.width, decode_of_fetch_ok h, by rwa [dataAddresses_raise], hge⟩

/-- Settles O25: the cursor's part of the invariant is kept by `step_keeps_cursorInv`; the memory changes only by what an
instruction wrote; a fault is recorded only by fetch or by an address out of range. -/
theorem stepKeepsTheInvariant : Obligations.StepKeepsTheInvariant := by
  intro s t hinv hstep
  obtain ⟨hpc, hstatus⟩ := step_keeps_cursorInv hinv.cursorInv hstep
  obtain ⟨hready, hcases⟩ := step_next_cases hstep
  obtain ⟨hfault, hlt⟩ := hinv.cursorInv.ready_iff.mp hready
  refine ⟨?memory, hpc, hstatus, ?fault⟩
  case memory =>
    rcases step_retires_or_raises hstep with ⟨i, w, hwrote, -, rfl⟩ | ⟨e, rfl⟩
    · exact hwrote.wf hinv.memory_wf
    · exact hinv.memory_wf
  case fault =>
    intro r hr
    rcases hcases with ⟨i, hfetch, hexec⟩ | ⟨e, hfetch, rfl⟩
    · rcases exec_next_cases hexec with ⟨w, hwrote, rfl⟩ | ⟨a, hmem, hge, rfl⟩
      · simp [hwrote.fault, hfault] at hr
      · obtain rfl := Option.some.inj hr
        exact faultJustified_of_dataAddress hfetch hmem hge
    · obtain ⟨d, hdecode, rfl⟩ := decode_of_fetch_error hfetch
      obtain rfl := Option.some.inj hr
      exact faultJustified_of_decode_error hlt hdecode

/-! ### What an instruction does, as a value of its operands, the registers it reads and the memory -/

/-- The one effect of an instruction on the state. -/
inductive Effect where
  /-- `v` is written to register `d`. -/
  | load (d : Byte) (v : Cell)
  /-- `v` is stored to cell `a`. -/
  | store (a : Nat) (v : Cell)
  /-- The address `a` is out of range. -/
  | fault (a : Nat)

/-- The effect of an instruction in a state (R81, R86, R88, R93). -/
def effectOf (s : State) : Instr → Effect
  | .loadConst dst value => .load dst (zextW value)
  | .readMem dst addr =>
    if addr.toNat < 1024 then .load dst (Memory.read s.memory addr.toNat) else .fault addr.toNat
  | .writeMem base src offset =>
    if s.basePlusOffset base offset < 1024 then .store (s.basePlusOffset base offset) (s.reg src)
    else .fault (s.basePlusOffset base offset)
  | .binOpLe dst lhs rhsBase rhsOffset =>
    if s.basePlusOffset rhsBase rhsOffset < 1024 then
      if s.indirect dst < 1024 then
        .store (s.indirect dst) (aluLe (s.reg lhs) (Memory.read s.memory (s.basePlusOffset rhsBase rhsOffset)))
      else .fault (s.indirect dst)
    else .fault (s.basePlusOffset rhsBase rhsOffset)

/-- The state after an effect of an instruction of `n` bytes. -/
def Effect.apply (n : Nat) (s : State) : Effect → State
  | .load d v => (s.setReg d v).retire n
  | .store a v => (s.setCell a v).retire n
  | .fault a => s.raise ⟨.outOfRange, a⟩

/-- The meaning of an instruction is its effect, applied. -/
theorem exec_eq_effect (i : Instr) (s : State) : exec i s = .next ((effectOf s i).apply i.width s) := by
  cases i with
  | loadConst dst value => rfl
  | readMem dst addr =>
    rw [effectOf]
    split_ifs with h
    · exact execReadMem_of_lt dst addr s h
    · exact execReadMem_of_ge dst addr s (Nat.not_lt.mp h)
  | writeMem base src offset =>
    rw [effectOf]
    split_ifs with h
    · exact execWriteMem_of_lt base src offset s h
    · exact execWriteMem_of_ge base src offset s (Nat.not_lt.mp h)
  | binOpLe dst lhs rhsBase rhsOffset =>
    rw [effectOf]
    split_ifs with hread hwrite
    · exact execBinOpLe_of_lt dst lhs rhsBase rhsOffset s hread hwrite
    · exact execBinOpLe_of_write_ge dst lhs rhsBase rhsOffset s hread (Nat.not_lt.mp hwrite)
    · exact execBinOpLe_of_read_ge dst lhs rhsBase rhsOffset s (Nat.not_lt.mp hread)

/-! ### The values a step brings in (R80) -/

section Values
variable {P : Cell → Prop}

/-- `P` holds of every register and of every cell. -/
structure AllValues (P : Cell → Prop) (s : State) : Prop where
  reg : ∀ j, P (s.reg j)
  cell : ∀ a, P (Memory.read s.memory a)

/-- Whether the value an effect writes satisfies `P`. -/
def Effect.Writes (P : Cell → Prop) : Effect → Prop
  | .load _ v => P v
  | .store _ v => P v
  | .fault _ => True

/-- Every instruction writes a value found in the state, 0 or 1, but for LOAD_CONST, which writes its immediate. -/
theorem effectOf_writes {s : State} {i : Instr} (h0 : P 0) (h1 : P 1)
    (hconst : ∀ dst value, i = .loadConst dst value → P (zextW value)) (hs : AllValues P s) :
    (effectOf s i).Writes P := by
  cases i with
  | loadConst dst value => exact hconst dst value rfl
  | readMem dst addr =>
    rw [effectOf]
    split_ifs
    · exact hs.cell addr.toNat
    · trivial
  | writeMem base src offset =>
    rw [effectOf]
    split_ifs
    · exact hs.reg src
    · trivial
  | binOpLe dst lhs rhsBase rhsOffset =>
    rw [effectOf]
    split_ifs
    · change P (aluLe _ _)
      rcases aluLe_eq_one_or_zero (s.reg lhs) (Memory.read s.memory (s.basePlusOffset rhsBase rhsOffset)) with h | h
      · rwa [h]
      · rwa [h]
    · trivial
    · trivial

theorem Effect.apply_allValues {s : State} {e : Effect} (n : Nat) (he : e.Writes P) (hs : AllValues P s) :
    AllValues P (e.apply n s) := by
  cases e with
  | load d v =>
    refine ⟨fun j => ?_, hs.cell⟩
    change P ((s.setReg d v).reg j)
    rw [reg_setReg]
    split_ifs
    · exact he
    · exact hs.reg j
  | store a v =>
    refine ⟨hs.reg, fun b => ?_⟩
    change P (Memory.read (Memory.write s.memory a v) b)
    rw [Memory.read_write]
    split_ifs
    · exact he
    · exact hs.cell b
  | fault a => exact ⟨hs.reg, hs.cell⟩

end Values

/-- Settles O27: the instruction a step runs is decoded from the stream, and writes a value that satisfies `P`. -/
theorem everyValueEnteredThroughALoadConst : Obligations.EveryValueEnteredThroughALoadConst := by
  intro P s t h0 h1 hconst hreg hcell hstep
  have hs : AllValues P s := ⟨hreg, hcell⟩
  suffices ht : AllValues P t from ⟨ht.reg, ht.cell⟩
  obtain ⟨-, ⟨i, hfetch, hexec⟩ | ⟨e, -, rfl⟩⟩ := step_next_cases hstep
  · have himmediate : ∀ dst value, i = .loadConst dst value → P (zextW value) := by
      rintro dst value rfl
      exact hconst _ _ _ _ (decode_of_fetch_ok hfetch)
    obtain rfl : (effectOf s i).apply i.width s = t := by simpa [exec_eq_effect] using hexec
    exact Effect.apply_allValues i.width (effectOf_writes h0 h1 himmediate hs) hs
  · exact ⟨hreg, hcell⟩

end Sys2Proof.Machine

namespace Sys2Proof.Machine

/-! ### Assembling printed lines (R66, R72 to R79) -/

theorem tokensFrom_append {t : Token} (ht : ∀ c ∈ t, isSpace c = false) (cur : Token) (rest : List Char) :
    tokensFrom cur (t ++ rest) = tokensFrom (cur ++ t) rest := by
  induction t generalizing cur with
  | nil => rw [List.append_nil, List.nil_append]
  | cons c t ih =>
    obtain ⟨hc, ht⟩ := List.forall_mem_cons.mp ht
    rw [List.cons_append, tokensFrom, hc, if_neg Bool.false_ne_true, ih ht, List.append_assoc, List.singleton_append]

theorem flushToken_of_ne_nil {t : Token} (h : t ≠ []) (rest : List Token) : flushToken t rest = t :: rest := by
  rw [flushToken, if_neg (by simpa using h)]

/-- The operands of a printed line are one token each, after the token under way. -/
theorem tokensFrom_printed_operands {cur : Token} (h : cur ≠ []) (vs : List Nat) :
    tokensFrom cur (vs.flatMap fun v => ' ' :: decimal v) = cur :: vs.map decimal := by
  induction vs generalizing cur with
  | nil => exact flushToken_of_ne_nil h []
  | cons v vs ih =>
    have hspace : isSpace ' ' = true := rfl
    rw [List.flatMap_cons, List.cons_append, tokensFrom, hspace, if_pos rfl, flushToken_of_ne_nil h,
      tokensFrom_append (decimal_no_space v), List.nil_append, ih (decimal_ne_nil v), List.map_cons]

theorem spelling_no_space (m : Mnemonic) : ∀ c ∈ m.spelling, isSpace c = false := by
  cases m <;> simp [Mnemonic.spelling, isSpace]

theorem spelling_ne_nil (m : Mnemonic) : m.spelling ≠ [] := by
  cases m <;> decide

@[simp] theorem mnemonicOf_spelling (m : Mnemonic) : mnemonicOf m.spelling = some m := by
  cases m <;> rfl

theorem tokens_printLine (m : Mnemonic) (vs : List Nat) : tokens (printLine m vs) = m.spelling :: vs.map decimal := by
  rw [tokens, printLine, tokensFrom_append (spelling_no_space m), List.nil_append,
    tokensFrom_printed_operands (spelling_ne_nil m)]

theorem literals_map_decimal (vs : List Nat) : literals (vs.map decimal) = .ok vs := by
  induction vs with
  | nil => rfl
  | cons v vs ih => simp only [List.map_cons, literals, literal_decimal, ih]

/-- A printed line with the mnemonic's number of operands is read back as their record. -/
theorem parseLine_printLine {m : Mnemonic} {vs : List Nat} (h : vs.length = m.arity) :
    parseLine (printLine m vs) = .ok (recordOf m vs) := by
  simp only [parseLine, tokens_printLine, mnemonicOf_spelling, List.length_map, h, if_true, literals_map_decimal]

theorem parseLine_disassemble (i : Instr) : parseLine (disassemble i) = .ok (some i.toRecord) := by
  cases i <;> exact parseLine_printLine rfl

/-- What one line adds to the assembler's output: nothing where it is blank, else its record's bytes and trace record. -/
def lineOutput (line : List Char) : Except AsmError (List Byte × List TraceRecord) :=
  match parseLine line with
  | .error e => .error e
  | .ok none => .ok ([], [])
  | .ok (some r) =>
    match encodeRecord r with
    | .error o => .error (.operandOverflow o)
    | .ok e => .ok (e.bytes, [e.trace])

/-- Two outputs one after the other. -/
def appendOutput (a b : List Byte × List TraceRecord) : List Byte × List TraceRecord := (a.1 ++ b.1, a.2 ++ b.2)

/-- A line's error, at its number, is the error of the whole; a line's output heads the output of the rest. -/
theorem assembleFrom_cons (n : Nat) (line : List Char) (rest : List (List Char)) :
    assembleFrom n (line :: rest) =
      ((lineOutput line).mapError fun e => (n, e)).bind fun out =>
        (assembleFrom (n + 1) rest).map (appendOutput out) := by
  rw [assembleFrom, lineOutput]
  cases parseLine line with
  | error e => rfl
  | ok parsed =>
    cases parsed with
    | none => cases hrest : assembleFrom (n + 1) rest <;> rfl
    | some r =>
      dsimp only
      cases encodeRecord r with
      | error o => rfl
      | ok e => cases assembleFrom (n + 1) rest <;> rfl

theorem assembleFrom_cons_of_error {line : List Char} {e : AsmError} (h : lineOutput line = .error e) (n : Nat)
    (rest : List (List Char)) : assembleFrom n (line :: rest) = .error (n, e) := by
  rw [assembleFrom_cons, h]
  rfl

theorem assembleFrom_cons_of_ok {line : List Char} {out : List Byte × List TraceRecord} (h : lineOutput line = .ok out)
    (n : Nat) (rest : List (List Char)) :
    assembleFrom n (line :: rest) = (assembleFrom (n + 1) rest).map (appendOutput out) := by
  rw [assembleFrom_cons, h]
  rfl

theorem lineOutput_disassemble (i : Instr) : lineOutput (disassemble i) = .ok (encode i, [trace i]) := by
  rw [lineOutput, parseLine_disassemble]
  simp only [encodeRecord_toRecord]

theorem assembleFrom_disassemble (is : List Instr) (n : Nat) :
    assembleFrom n (is.map disassemble) = .ok (streamOf is, is.map trace) := by
  induction is generalizing n with
  | nil => rfl
  | cons i is ih =>
    rw [List.map_cons, assembleFrom_cons_of_ok (lineOutput_disassemble i), ih, streamOf_cons]
    rfl

/-- Settles O45, by induction on the list of instructions, from any line number. -/
theorem assemblingDisassembledLinesGivesTheBytes : Obligations.AssemblingDisassembledLinesGivesTheBytes :=
  fun is => assembleFrom_disassemble is 0

/-! ### Lines that fail, and blank lines (R74 to R76) -/

theorem mnemonicOf_of_no_spelling {t : Token} (h : ∀ m : Mnemonic, t ≠ m.spelling) : mnemonicOf t = none := by
  simp only [mnemonicOf, if_neg (h _)]

theorem lineOutput_of_unknown_mnemonic {line : List Char} {t : Token} {args : List Token} (h : tokens line = t :: args)
    (ht : ∀ m : Mnemonic, t ≠ m.spelling) : lineOutput line = .error (.unknownMnemonic t) := by
  simp only [lineOutput, parseLine, h, mnemonicOf_of_no_spelling ht]

theorem lineOutput_of_blank {line : List Char} (h : tokens line = []) : lineOutput line = .ok ([], []) := by
  simp only [lineOutput, parseLine, h]

theorem except_map_eq_ok_iff {ε α β : Type} {f : α → β} {x : Except ε α} {b : β} :
    x.map f = .ok b ↔ ∃ a, x = .ok a ∧ f a = b := by
  cases x with
  | error e => simp [Except.map]
  | ok a => simp [Except.map]

/-- A line that fails after lines that assemble is the error of the whole, at its own line number. -/
theorem assembleFrom_append_of_error {before : List (List Char)} {out : List Byte × List TraceRecord} {n : Nat}
    (hbefore : assembleFrom n before = .ok out) {line : List Char} {e : AsmError} (hline : lineOutput line = .error e)
    (after : List (List Char)) : assembleFrom n (before ++ line :: after) = .error (n + before.length, e) := by
  induction before generalizing n out with
  | nil => exact assembleFrom_cons_of_error hline n after
  | cons first before ih =>
    cases hfirst : lineOutput first with
    | error e => simp [assembleFrom_cons_of_error hfirst] at hbefore
    | ok o =>
      rw [assembleFrom_cons_of_ok hfirst, except_map_eq_ok_iff] at hbefore
      obtain ⟨rest, hrest, -⟩ := hbefore
      rw [List.cons_append, assembleFrom_cons_of_ok hfirst, ih hrest, List.length_cons, Nat.add_right_comm]
      rfl

/-- Settles O46: a line whose first token is no mnemonic's spelling fails, whatever stands after it. -/
theorem unknownMnemonicAbortsTheAssembly : Obligations.UnknownMnemonicAbortsTheAssembly := by
  rintro before after line m args ⟨out, hbefore⟩ htokens hm
  have h := assembleFrom_append_of_error hbefore (lineOutput_of_unknown_mnemonic htokens hm) after
  rwa [Nat.zero_add] at h

/-- Settles O47: the count is compared before the operands are read. -/
theorem operandCountMismatchIsArityError : Obligations.OperandCountMismatchIsArityError := by
  intro line mn args htokens hcount
  simp only [parseLine, htokens, mnemonicOf_spelling, if_neg hcount]

/-- The output does not depend on the line numbers, and a blank line adds nothing to it. -/
theorem assembleFrom_filter_nonblank (lines : List (List Char)) (n k : Nat) (out : List Byte × List TraceRecord) :
    assembleFrom n lines = .ok out ↔
      assembleFrom k (lines.filter fun line => tokens line ≠ []) = .ok out := by
  induction lines generalizing n k out with
  | nil => exact Iff.rfl
  | cons line lines ih =>
    by_cases hblank : tokens line = []
    · rw [List.filter_cons_of_neg (by simpa using hblank), assembleFrom_cons_of_ok (lineOutput_of_blank hblank),
        except_map_eq_ok_iff, ← ih (n + 1) k out]
      exact exists_eq_right
    · rw [List.filter_cons_of_pos (by simpa using hblank)]
      cases hline : lineOutput line with
      | error e => simp only [assembleFrom_cons_of_error hline, reduceCtorEq]
      | ok o => simp only [assembleFrom_cons_of_ok hline, except_map_eq_ok_iff, ih (n + 1) (k + 1)]

/-- Settles O48, by induction on the lines, from any two line numbers. -/
theorem blankLinesAreSkipped : Obligations.BlankLinesAreSkipped :=
  fun lines out => assembleFrom_filter_nonblank lines 0 0 out

end Sys2Proof.Machine

namespace Sys2Proof.Machine

/-! ### The ALU, the address arithmetic and BIN_OP_LE (R89, R93 to R96) -/

theorem toNat_aluLe (a b : Cell) : (aluLe a b).toNat = if a.toNat ≤ b.toNat then 1 else 0 := by
  unfold aluLe
  split_ifs <;> rfl

/-- Settles O7, by the ALU's answer as a number. -/
theorem aluComparesUnsigned : Obligations.AluComparesUnsigned :=
  fun a b => ⟨fun h => (toNat_aluLe a b).trans (if_pos h), fun h => (toNat_aluLe a b).trans (if_neg (Nat.not_le.mpr h))⟩

/-- Settles O8: the sum of a cell and a byte, and the check on both sides of the memory's size. -/
theorem effectiveAddressIsTheExactSum : Obligations.EffectiveAddressIsTheExactSum := by
  intro s base offset
  have hsum : s.basePlusOffset base offset = (s.reg base).toNat + offset.toNat := rfl
  have hcell : (s.reg base).toNat < 65536 := cell_lt _
  have hoffset : offset.toNat < 256 := offset.isLt
  exact ⟨hsum, by omega, by omega, memCheck_of_lt, memCheck_of_ge⟩

/-- Settles O6: with both addresses in range BIN_OP_LE is one store of the ALU's answer; otherwise it takes one fault, the
read address being checked first. -/
theorem binOpLeStoresTheComparison : Obligations.BinOpLeStoresTheComparison := by
  refine fun dst lhs rhsBase rhsOffset s => ⟨rfl, rfl, rfl, fun hread hwrite => ?completes, fun hread => ?readFaults,
    fun hread hwrite => ?writeFaults⟩
  case completes =>
    have hexec := execBinOpLe_of_lt dst lhs rhsBase rhsOffset s hread hwrite
    obtain ⟨hmem, hregs⟩ := setCell_retire_frame s (s.indirect dst)
      (aluLe (s.reg lhs) (Memory.read s.memory (s.basePlusOffset rhsBase rhsOffset))) 5
    refine ⟨_, hexec, ?_, hmem, hregs, completedBy_retire rfl rfl rfl 5⟩
    rw [retire_memory, setCell_memory, Memory.read_write_same, toNat_aluLe]
  case readFaults =>
    exact ⟨_, execBinOpLe_of_read_ge dst lhs rhsBase rhsOffset s hread, faultedWith_raise s .outOfRange _⟩
  case writeFaults =>
    exact ⟨_, execBinOpLe_of_write_ge dst lhs rhsBase rhsOffset s hread hwrite, faultedWith_raise s .outOfRange _⟩

/-! ### Registers and cells an instruction depends on and changes (R11, R30, R37, R90) -/

/-- The effect of an instruction depends on the memory and on the registers the table lists as read. -/
theorem effectOf_congr {s u : State} (i : Instr) (hmem : u.memory = s.memory)
    (hreg : ∀ r ∈ readRegisters i, u.reg r = s.reg r) : effectOf u i = effectOf s i := by
  cases i with
  | loadConst dst value => rfl
  | readMem dst addr => rw [effectOf, effectOf, hmem]
  | writeMem base src offset =>
    have haddress : u.basePlusOffset base offset = s.basePlusOffset base offset :=
      congrArg (·.toNat + offset.toNat) (hreg base (by simp [readRegisters]))
    have hsrc : u.reg src = s.reg src := hreg src (by simp [readRegisters])
    rw [effectOf, effectOf, haddress, hsrc]
  | binOpLe dst lhs rhsBase rhsOffset =>
    have hread : u.basePlusOffset rhsBase rhsOffset = s.basePlusOffset rhsBase rhsOffset :=
      congrArg (·.toNat + rhsOffset.toNat) (hreg rhsBase (by simp [readRegisters]))
    have hwrite : u.indirect dst = s.indirect dst := congrArg (·.toNat) (hreg dst (by simp [readRegisters]))
    have hlhs : u.reg lhs = s.reg lhs := hreg lhs (by simp [readRegisters])
    rw [effectOf, effectOf, hread, hwrite, hlhs, hmem]

/-- `u` is `t` but for what register `r` holds. -/
structure AgreeButReg (r : Byte) (t u : State) : Prop where
  memory : u.memory = t.memory
  pc : u.pc = t.pc
  status : u.status = t.status
  fault : u.fault = t.fault
  prog : u.prog = t.prog
  reg : ∀ j, j ≠ r → u.reg j = t.reg j

/-- The same effect in states that differ in register `r` leaves states that differ in no other. -/
theorem Effect.apply_setReg (e : Effect) (n : Nat) (s : State) (r : Byte) (v : Cell) :
    AgreeButReg r (e.apply n s) (e.apply n (s.setReg r v)) := by
  cases e with
  | load d w =>
    refine ⟨rfl, rfl, rfl, rfl, rfl, fun j hj => ?_⟩
    change ((s.setReg r v).setReg d w).reg j = (s.setReg d w).reg j
    rw [reg_setReg, reg_setReg_of_ne s r v hj, ← reg_setReg]
  | store a w => exact ⟨rfl, rfl, rfl, rfl, rfl, fun j hj => reg_setReg_of_ne s r v hj⟩
  | fault a => exact ⟨rfl, rfl, rfl, rfl, rfl, fun j hj => reg_setReg_of_ne s r v hj⟩

/-- Settles O11: a register that is not read does not change the effect, and the effect carries it along. -/
theorem registersReadAndWrittenAreThoseOfTheTable : Obligations.RegistersReadAndWrittenAreThoseOfTheTable := by
  refine fun i s => ⟨_, exec_eq_effect i s, fun j => exec_reg_of_not_written (exec_eq_effect i s), fun r v hr => ?_⟩
  have heffect : effectOf (s.setReg r v) i = effectOf s i :=
    effectOf_congr i rfl fun j hj => reg_setReg_of_ne s r v fun h => hr (h ▸ hj)
  have hexec := exec_eq_effect i (s.setReg r v)
  rw [heffect] at hexec
  obtain ⟨hmem, hpc, hstatus, hfault, hprog, hreg⟩ := (effectOf s i).apply_setReg i.width s r v
  exact ⟨_, hexec, hmem, hpc, hstatus, hfault, hprog, hreg⟩

/-- Settles O12, by what `exec` leaves as it was. -/
theorem onlyTheStoredCellChanges : Obligations.OnlyTheStoredCellChanges := by
  intro i s
  obtain ⟨t, hexec⟩ := exists_exec_next i s
  exact ⟨t, hexec, fun a => exec_cell_of_not_stored hexec⟩

/-! #### Executing a list of instructions -/

theorem execAll_cons_of_next {i : Instr} {s t : State} (h : exec i s = .next t) (is : List Instr) :
    execAll (i :: is) s = if t.status = .faulted then t else execAll is t := by
  rw [execAll, h]

theorem read_execAll_of_noStoreTo {a : Nat} {is : List Instr} {s : State} (h : noStoreTo a is s) :
    Memory.read (execAll is s).memory a = Memory.read s.memory a := by
  induction is generalizing s with
  | nil => rfl
  | cons i is ih =>
    obtain ⟨hstored, hrest⟩ := h
    obtain ⟨t, hexec⟩ := exists_exec_next i s
    rw [execAll_cons_of_next hexec, ← exec_cell_of_not_stored hexec hstored]
    split_ifs
    · rfl
    · exact ih (hrest t hexec)

/-- Settles O13: the store leaves the value in the cell, the instructions between keep the cell, and the load reads it. -/
theorem storeThenLoadGivesTheStoredValue : Obligations.StoreThenLoadGivesTheStoredValue := by
  intro base src offset dst addr between s t haddr hea hstore hbetween _
  obtain ⟨-, -, hcompletes, -⟩ := writeMemStoresAtBasePlusOffset base src offset s
  obtain ⟨t', hstore', hcell, -⟩ := hcompletes (hea ▸ haddr)
  obtain rfl : t' = t := by simpa [hstore'] using hstore
  obtain ⟨-, hloads, -⟩ := readMemLoadsTheAddressedCell dst addr (execAll between t')
  obtain ⟨u, hload, hdst, -⟩ := hloads haddr
  exact ⟨u, hload, by rw [hdst, read_execAll_of_noStoreTo hbetween, ← hea, hcell]⟩

end Sys2Proof.Machine

namespace Sys2Proof.Machine

/-! ### The step function (R100 to R107, R122 to R130) -/

/-- Settles O14: fetch is the decoder at the cursor, and a completed instruction moves the cursor by its width. -/
theorem stepRunsTheDecodedInstruction : Obligations.StepRunsTheDecodedInstruction := by
  intro s i n hready hdecode
  obtain ⟨rfl, -⟩ := decodeHead_ok hdecode
  have hstep : step s = exec i s := step_of_decode_ok hready hdecode
  refine ⟨rfl, hstep, fun t ht hcompletes => ?_⟩
  obtain ⟨hpc, -⟩ := exec_completedBy (hstep ▸ ht) hcompletes
  exact hpc

theorem opcodeWidth_of_opcode {op : Byte} {n : Nat}
    (h : (op = 192 ∨ op = 247 ∨ op = 115) ∧ n = 4 ∨ op = 83 ∧ n = 5) : opcodeWidth op = some n := by
  rcases h with ⟨rfl | rfl | rfl, rfl⟩ | ⟨rfl, rfl⟩ <;> rfl

/-- A step takes the fault of an instruction whose bytes run past the end of the stream (R103, R123). -/
theorem step_of_short {s : State} {op : Byte} {n : Nat} (hready : s.status = .ready) (hop : s.prog[s.pc]? = some op)
    (hwidth : opcodeWidth op = some n) (hshort : s.prog.length < s.pc + n) :
    ∃ t, step s = .next t ∧ faultedWith s t .truncatedInstruction (s.prog.length - s.pc) :=
  ⟨_, step_of_decode_error hready (decode_of_short hop hwidth hshort), faultedWith_raise s _ _⟩

/-- Settles O16: the opcode byte is present, and the decoder counts the bytes from it to the end. -/
theorem shortInstructionTakesTruncatedInstruction : Obligations.ShortInstructionTakesTruncatedInstruction := by
  intro s op n hready hop hlegal hshort
  obtain ⟨hpc, -⟩ := List.getElem?_eq_some_iff.mp hop
  exact ⟨by omega, step_of_short hready hop (opcodeWidth_of_opcode hlegal) hshort⟩

theorem opcodeWidth_of_not_legalOpcode {op : Byte} (h : legalOpcode op = false) : opcodeWidth op = none := by
  simpa [legalOpcode] using h

/-- Settles O17: what the decoder refuses is taken by fetch; what it gives takes the fault of its own meaning. -/
theorem faultPriorityOfOneStep : Obligations.FaultPriorityOfOneStep := by
  refine fun s op hready hop => ⟨fun hillegal => ?illegal, fun n hwidth hshort => ?short,
    fun dst addr n hdecode hge => ?readMem, fun base src offset n hdecode hge => ?writeMem,
    fun dst lhs rhsBase rhsOffset n hdecode => ?binOpLe⟩
  case illegal =>
    exact ⟨_, step_of_decode_error hready (decode_of_illegal hop (opcodeWidth_of_not_legalOpcode hillegal)),
      faultedWith_raise s _ _⟩
  case short => exact step_of_short hready hop hwidth hshort
  case readMem =>
    rw [step_of_decode_ok hready hdecode]
    obtain ⟨-, -, hfaults⟩ := readMemLoadsTheAddressedCell dst addr s
    exact hfaults hge
  case writeMem =>
    rw [step_of_decode_ok hready hdecode]
    obtain ⟨-, -, -, hfaults⟩ := writeMemStoresAtBasePlusOffset base src offset s
    exact hfaults hge
  case binOpLe =>
    rw [step_of_decode_ok hready hdecode]
    obtain ⟨-, -, -, -, hreadFaults, hwriteFaults⟩ := binOpLeStoresTheComparison dst lhs rhsBase rhsOffset s
    exact ⟨hreadFaults, hwriteFaults⟩

/-- Settles O18: a step that answers a next state began in a `Ready` state, and no step answers the host's fault. -/
theorem stepAppliesOnlyWhenReady : Obligations.StepAppliesOnlyWhenReady := by
  refine fun s => ⟨exists_step_of_ready, fun hs => ⟨fun t hstep => hs (step_next_cases hstep).1, fun r => ?_⟩⟩
  rcases status_eq_halted_or_faulted hs with h | h
  · simp [step, h]
  · simp [step, h]

/-- Settles O20, by the lemma for every kind and info. -/
theorem takingAFaultRecordsItAndChangesNothingElse : Obligations.TakingAFaultRecordsItAndChangesNothingElse :=
  fun s e => faultedWith_raise s e.kind e.info

/-- Settles O19: a step retires the decoded instruction, or raises the fault of fetch or of an address. -/
theorem stepCompletesOrFaultsWhole : Obligations.StepCompletesOrFaultsWhole := by
  intro s hready
  obtain ⟨t, hstep⟩ := exists_step_of_ready hready
  refine ⟨t, hstep, ?_⟩
  obtain ⟨-, ⟨i, hfetch, hexec⟩ | ⟨e, -, rfl⟩⟩ := step_next_cases hstep
  · rcases exec_next_cases hexec with ⟨w, -, rfl⟩ | ⟨a, -, -, rfl⟩
    · have hcompletes := retire_not_faulted w i.width
      exact .inl ⟨hcompletes, i, i.width, decode_of_fetch_ok hfetch, exec_completedBy hexec hcompletes,
        fun _ => exec_reg_of_not_written hexec, fun _ => exec_cell_of_not_stored hexec⟩
    · exact .inr ⟨_, _, faultedWith_raise s .outOfRange a⟩
  · exact .inr ⟨_, _, faultedWith_raise s e.kind e.info⟩

/-! ### Sequences of steps -/

/-- No step leads out of a state that is not `Ready`. -/
theorem Reaches.eq_of_not_ready {s t : State} (hs : s.status ≠ .ready) (h : Reaches s t) : t = s := by
  induction h with
  | refl => rfl
  | step _ hstep ih =>
    subst ih
    exact absurd (step_next_cases hstep).1 hs

theorem init_status_ne_faulted (prog : List Byte) : (State.init prog).status ≠ .faulted := by
  rw [init_status]
  split_ifs <;> decide

/-- Settles O21: a faulted state is not `Ready`; reset is the reset state of the stream. -/
theorem faultedIsLeftOnlyByReset : Obligations.FaultedIsLeftOnlyByReset :=
  fun s t hs => ⟨Reaches.eq_of_not_ready (by simp [hs]), init_status_ne_faulted s.prog, init_fault s.prog⟩

theorem step_keeps_prog {s t : State} (h : step s = .next t) : t.prog = s.prog := by
  obtain ⟨-, ⟨i, -, hexec⟩ | ⟨e, -, rfl⟩⟩ := step_next_cases h
  · exact exec_keeps_prog hexec
  · rfl

/-- Settles O22, by induction on the steps. -/
theorem theProgramStreamIsNeverWritten : Obligations.TheProgramStreamIsNeverWritten := by
  refine ⟨fun i s t => exec_keeps_prog, fun s t h => ?_⟩
  induction h with
  | refl => rfl
  | step _ hstep ih => exact (step_keeps_prog hstep).trans ih

/-! ### The bytes a step looks at (R102, R103) -/

/-- A step looks at one byte at least, the opcode byte. -/
theorem getD_opcodeWidth_pos (op : Byte) : 0 < (opcodeWidth op).getD 1 := by
  unfold opcodeWidth
  split_ifs <;> decide

/-- The decoder looks at the opcode byte and the operand bytes it announces, and for too few of them at their count. -/
theorem decode_congr {bytes bytes' : List Byte} {off : Nat} {op : Byte} (hlength : bytes'.length = bytes.length)
    (hop : bytes[off]? = some op) (hagree : ∀ k, k < (opcodeWidth op).getD 1 → bytes'[off + k]? = bytes[off + k]?) :
    decode bytes' off = decode bytes off := by
  have hop' : bytes'[off]? = some op := (hagree 0 (getD_opcodeWidth_pos op)).trans hop
  rcases decode_cases hop with ⟨hwidth, hdecode⟩ | ⟨n, hwidth, hshort, hdecode⟩ | ⟨i, hwidth, hdecode⟩
  · rw [hdecode, decode_of_illegal hop' hwidth]
  · rw [hdecode, decode_of_short hop' hwidth (hlength ▸ hshort), hlength]
  · obtain ⟨-, hbytes⟩ := decode_eq_ok_iff.mp hdecode
    rw [hwidth] at hagree
    rw [hdecode, decode_eq_ok_iff, ← hbytes]
    refine ⟨rfl, List.ext_getElem? fun k => ?_⟩
    simp only [List.getElem?_take, List.getElem?_drop]
    split_ifs with hk
    · exact hagree k hk
    · rfl

theorem decode_congr_of_fetchLength {s : State} {prog' : List Byte} (hlength : prog'.length = s.prog.length)
    (hagree : ∀ k, s.pc ≤ k → k < s.pc + fetchLength s → prog'[k]? = s.prog[k]?) :
    decode prog' s.pc = decode s.prog s.pc := by
  cases hop : s.prog[s.pc]? with
  | none =>
    have hend : s.prog.length ≤ s.pc := List.getElem?_eq_none_iff.mp hop
    rw [decode_of_length_le hend, decode_of_length_le (hlength ▸ hend)]
  | some op =>
    have hlook : fetchLength s = (opcodeWidth op).getD 1 := by simp only [fetchLength, hop]
    exact decode_congr hlength hop fun k hk => hagree _ (Nat.le_add_right _ _) (by omega)

/-- An effect leaves the stream alone and looks at its length only. -/
theorem Effect.apply_withProg (e : Effect) (n : Nat) (s : State) {prog' : List Byte}
    (hlength : prog'.length = s.prog.length) :
    e.apply n { s with prog := prog' } = { e.apply n s with prog := prog' } := by
  have hretire (w : State) (hw : w.prog = s.prog) :
      State.retire { w with prog := prog' } n = { w.retire n with prog := prog' } := by
    simp only [State.retire, hlength, hw]
  cases e with
  | load d v => exact hretire (s.setReg d v) rfl
  | store a v => exact hretire (s.setCell a v) rfl
  | fault a => rfl

theorem fetch_congr {s u : State} (h : decode u.prog u.pc = decode s.prog s.pc) : u.fetch = s.fetch := by
  simp only [State.fetch, h]

/-- Settles O23: the other stream decodes alike at the cursor, and what is decoded has the same effect. -/
theorem stepReadsOnlyTheBytesOfItsInstruction : Obligations.StepReadsOnlyTheBytesOfItsInstruction := by
  intro s t prog' hlength hagree hstep
  have hfetch : State.fetch { s with prog := prog' } = s.fetch :=
    fetch_congr (decode_congr_of_fetchLength hlength hagree)
  obtain ⟨hready, ⟨i, hi, hexec⟩ | ⟨e, he, rfl⟩⟩ := step_next_cases hstep
  · obtain rfl : (effectOf s i).apply i.width s = t := by simpa [exec_eq_effect] using hexec
    have heffect : effectOf { s with prog := prog' } i = effectOf s i := effectOf_congr i rfl fun _ _ => rfl
    rw [step_of_fetch_ok (s := { s with prog := prog' }) hready (hfetch.trans hi), exec_eq_effect, heffect,
      Effect.apply_withProg _ _ s hlength]
  · exact step_of_fetch_error hready (hfetch.trans he)

end Sys2Proof.Machine

namespace Sys2Proof.Machine

/-! ### Canonical memories (log 9) -/

namespace Memory

@[simp] theorem read_cons_same (a : Nat) (v : Cell) (m : Memory) : read ((a, v) :: m) a = v := if_pos rfl

theorem read_cons_of_ne {a b : Nat} (h : a ≠ b) (v : Cell) (m : Memory) : read ((a, v) :: m) b = read m b := if_neg h

/-- The first address of a canonical list is the lowest at which it does not read as an unlisted cell. -/
theorem head_le_of_read_ne {a b : Nat} {v : Cell} {m : Memory} {n : Nat} (hm : wfFrom n ((a, v) :: m) = true)
    (h : read ((a, v) :: m) b ≠ unlistedCell) : a ≤ b := by
  by_contra hlt
  obtain ⟨-, hsize, hv, hrest⟩ := (wfFrom_cons n a v m).mp hm
  exact h (read_of_lt ((wfFrom_cons a a v m).mpr ⟨le_rfl, hsize, hv, hrest⟩) (Nat.not_le.mp hlt))

/-- Lists that are canonical from an address on, and read alike, are equal: they have the same first entry. -/
theorem eq_of_wfFrom_of_read_eq {n : Nat} {m k : Memory} (hm : wfFrom n m = true) (hk : wfFrom n k = true)
    (h : ∀ a, read m a = read k a) : m = k := by
  induction m generalizing n k with
  | nil =>
    cases k with
    | nil => rfl
    | cons e k =>
      obtain ⟨a, v⟩ := e
      obtain ⟨-, -, hv, -⟩ := (wfFrom_cons n a v k).mp hk
      exact absurd ((read_cons_same a v k).symm.trans (h a).symm) hv
  | cons e m ih =>
    obtain ⟨a, v⟩ := e
    obtain ⟨-, -, hv, hmrest⟩ := (wfFrom_cons n a v m).mp hm
    have hkv : read k a = v := (h a).symm.trans (read_cons_same a v m)
    cases k with
    | nil => exact absurd hkv.symm hv
    | cons f k =>
      obtain ⟨b, w⟩ := f
      obtain ⟨-, -, hw, hkrest⟩ := (wfFrom_cons n b w k).mp hk
      have hmw : read ((a, v) :: m) b = w := (h b).trans (read_cons_same b w k)
      obtain rfl : a = b := Nat.le_antisymm (head_le_of_read_ne hm (hmw ▸ hw)) (head_le_of_read_ne hk (hkv ▸ hv))
      obtain rfl : w = v := (read_cons_same a w k).symm.trans hkv
      have hrest (c : Nat) : read m c = read k c := by
        by_cases hc : a = c
        · subst hc
          rw [read_of_lt hmrest (Nat.lt_succ_self a), read_of_lt hkrest (Nat.lt_succ_self a)]
        · rw [← read_cons_of_ne hc w m, ← read_cons_of_ne hc w k]
          exact h c
      rw [ih hmrest hkrest hrest]

end Memory

/-- Settles O28, by induction on the first list, from the address it is canonical from. -/
theorem canonicalMemoriesThatReadAlikeAreEqual : Obligations.CanonicalMemoriesThatReadAlikeAreEqual :=
  fun _ _ hm hk h => Memory.eq_of_wfFrom_of_read_eq hm hk h

/-! ### Reset (R26, R150, R151) -/

theorem init_status_of_pos {prog : List Byte} (h : 0 < prog.length) : (State.init prog).status = .ready :=
  if_neg (Nat.ne_of_gt h)

theorem init_status_of_empty {prog : List Byte} (h : prog.length = 0) : (State.init prog).status = .halted := if_pos h

/-- Settles O2: restarting is the reset state of the machine's own stream. -/
theorem resetOfAnInstanceDiscardsAllButTheStream : Obligations.ResetOfAnInstanceDiscardsAllButTheStream :=
  fun s => ⟨init_reg s.prog, fun _ => rfl, rfl, rfl, rfl, init_status_of_pos, init_status_of_empty⟩

/-- Settles O1: a stream whose bytes at offset 0 decode has a byte, so its reset state is `Ready`. -/
theorem resetGivesEveryPieceOfStateItsValue : Obligations.ResetGivesEveryPieceOfStateItsValue := by
  refine fun prog => ⟨init_reg prog, fun _ => rfl, rfl, rfl, rfl, init_status_of_pos, init_status_of_empty,
    fun i n hdecode => ?_⟩
  obtain ⟨rfl, -⟩ := decodeHead_ok hdecode
  have hfits : 0 + i.width ≤ prog.length := decode_ok_fits hdecode
  have hpos : 4 ≤ i.width := width_pos i
  exact step_of_decode_ok (init_status_of_pos (by omega)) hdecode

theorem init_cursorInv (prog : List Byte) : CursorInv (State.init prog) := by
  refine ⟨Nat.zero_le _, ?_⟩
  rw [statusOf_of_fault_eq_none (init_fault prog), init_status, init_pc, init_prog]
  simp only [eq_comm]

theorem init_inv (prog : List Byte) : (State.init prog).Inv where
  memory_wf := rfl
  pc_le := (init_cursorInv prog).pc_le
  status_eq := (init_cursorInv prog).status_eq
  fault_ok := fun _ h => nomatch h

/-- Settles O24, by the invariant of the reset state of every stream. -/
theorem resetSatisfiesTheInvariant : Obligations.ResetSatisfiesTheInvariant :=
  ⟨rfl, init_inv [], init_inv⟩

/-! ### The result window (R112, R113) -/

theorem window_of_halted {s : State} {start finish : Nat} (hs : s.status = .halted) (h : start ≤ finish)
    (hsize : finish ≤ 1024) :
    window s start finish = .ok ((List.range (finish - start)).map fun k => Memory.read s.memory (start + k)) := by
  simp only [window, hs]
  exact if_pos ⟨h, hsize⟩

/-- Settles O34: the window is a map over the range of the distance between its bounds. -/
theorem windowIsTheOrderedRangeOfCells : Obligations.WindowIsTheOrderedRangeOfCells := by
  refine fun s start finish hs h hsize => ⟨_, window_of_halted hs h hsize, by simp, fun k hk => ?_⟩
  rw [List.getElem?_map, List.getElem?_range hk]
  rfl

/-- Settles O35, by the window's cases. -/
theorem windowIsRefusedOutsideItsConditions : Obligations.WindowIsRefusedOutsideItsConditions := by
  refine fun s start finish => ⟨fun hs => ?_, fun hs hbounds => ?_, fun hs hstart => ?_⟩
  · cases h : s.status with
    | ready => simp only [window, h]
    | halted => exact absurd h hs
    | faulted => simp only [window, h]
  · have hbad : ¬ (start ≤ finish ∧ finish ≤ 1024) := by omega
    simp only [window, hs]
    exact if_neg hbad
  · rw [window_of_halted hs le_rfl hstart, Nat.sub_self]
    rfl

/-! ### The encoder's refusals and the trace record (R64, R67) -/

theorem encodeRecord_of_overflow {r : Record} {o : OperandOverflow} (h : r.overflow = some o) :
    encodeRecord r = .error o := by
  simp only [encodeRecord, h]

theorem encodeRecord_eq_ok_iff {r : Record} : (∃ e, encodeRecord r = .ok e) ↔ r.wf = true := by
  cases hr : r.wf with
  | true => simp [encodeRecord_of_wf hr]
  | false =>
    obtain ⟨o, ho⟩ := encodeRecord_of_not_wf hr
    simp [ho]

theorem fitsU8_of_le {v : Nat} (h : v ≤ 255) : fitsU8 v = true := decide_eq_true h

theorem fitsU8_of_lt {v : Nat} (h : 255 < v) : fitsU8 v = false := decide_eq_false (Nat.not_le.mpr h)

theorem fitsU16_of_lt {v : Nat} (h : 65535 < v) : fitsU16 v = false := decide_eq_false (Nat.not_le.mpr h)

@[simp] theorem firstMisfit_cons_fits (name : OperandName) (v : Nat) (rest : List (OperandName × Nat × Bool)) :
    firstMisfit ((name, v, true) :: rest) = firstMisfit rest := rfl

@[simp] theorem firstMisfit_cons_misfit (name : OperandName) (v : Nat) (rest : List (OperandName × Nat × Bool)) :
    firstMisfit ((name, v, false) :: rest) = some ⟨name, v⟩ := rfl

/-- Settles O39: the operand check goes over the operands in order and stops at the first that does not fit. -/
theorem encoderRefusesTheFirstOperandThatDoesNotFit : Obligations.EncoderRefusesTheFirstOperandThatDoesNotFit := by
  refine ⟨fun r => encodeRecord_eq_ok_iff, fun dst value => ⟨fun h1 => ?_, fun h1 h2 => ?_⟩,
    fun dst addr => ⟨fun h1 => ?_, fun h1 h2 => ?_⟩,
    fun base src offset => ⟨fun h1 => ?_, fun h1 h2 => ?_, fun h1 h2 h3 => ?_⟩,
    fun dst lhs rhsBase rhsOffset => ⟨fun h1 => ?_, fun h1 h2 => ?_, fun h1 h2 h3 => ?_, fun h1 h2 h3 h4 => ?_⟩⟩
  all_goals
    apply encodeRecord_of_overflow
    simp [Record.overflow, Record.operands, fitsU8_of_le, fitsU8_of_lt, fitsU16_of_lt, *]

theorem toNat_ofNat_of_fitsU8 {v : Nat} (h : fitsU8 v = true) : (BitVec.ofNat 8 v).toNat = v :=
  Nat.mod_eq_of_lt (Nat.lt_succ_of_le (of_decide_eq_true h))

theorem toNat_ofNat_of_fitsU16 {v : Nat} (h : fitsU16 v = true) : (BitVec.ofNat 16 v).toNat = v :=
  Nat.mod_eq_of_lt (Nat.lt_succ_of_le (of_decide_eq_true h))

/-- No operand of a valid record is cut off (R64). -/
theorem toRecord_toInstr {r : Record} (h : r.wf = true) : r.toInstr.toRecord = r := by
  cases r with
  | loadConst dst value =>
    obtain ⟨hdst, hvalue⟩ := Bool.and_eq_true_iff.mp h
    simp only [Record.toInstr, Instr.toRecord, toNat_ofNat_of_fitsU8 hdst, toNat_ofNat_of_fitsU16 hvalue]
  | readMem dst addr =>
    obtain ⟨hdst, haddr⟩ := Bool.and_eq_true_iff.mp h
    simp only [Record.toInstr, Instr.toRecord, toNat_ofNat_of_fitsU8 hdst, toNat_ofNat_of_fitsU16 haddr]
  | writeMem base src offset =>
    simp only [Record.wf, Bool.and_eq_true] at h
    obtain ⟨⟨hbase, hsrc⟩, hoffset⟩ := h
    simp only [Record.toInstr, Instr.toRecord, toNat_ofNat_of_fitsU8, hbase, hsrc, hoffset]
  | binOpLe dst lhs rhsBase rhsOffset =>
    simp only [Record.wf, Bool.and_eq_true] at h
    obtain ⟨⟨⟨hdst, hlhs⟩, hbase⟩, hoffset⟩ := h
    simp only [Record.toInstr, Instr.toRecord, toNat_ofNat_of_fitsU8, hdst, hlhs, hbase, hoffset]

/-- Settles O41: a record that encodes is an instruction's, whose trace record holds its operands. -/
theorem traceRecordHoldsTheOperandsInOrder : Obligations.TraceRecordHoldsTheOperandsInOrder := by
  intro r e h
  obtain ⟨i, rfl⟩ : ∃ i : Instr, i.toRecord = r := ⟨_, toRecord_toInstr (encodeRecord_eq_ok_iff.mp ⟨e, h⟩)⟩
  obtain rfl : _ = e := Except.ok.inj ((encodeRecord_toRecord i).symm.trans h)
  cases i <;> rfl

/-! ### The opcode table's view of an instruction as one number (R6, R56) -/

theorem decodeTableWord_of_tableBytes {nbits w : Nat} {i : Instr} {after : List Byte}
    (h : tableBytes nbits w = encode i ++ after) : decodeTableWord nbits w = some i := by
  have hdecode : decode (tableBytes nbits w) 0 = .ok (i, i.width) := h ▸ decodeHead_encode_append i after
  rw [decodeTableWord, hdecode]

/-- A 16-bit field in bits 31..16 is its two bytes, low byte first. -/
theorem half_mul_eq (v : Half) : v.toNat * 2 ^ 16 = (lowByte v).toNat * 2 ^ 16 + (highByte v).toNat * 2 ^ 24 := by
  rw [lowByte_toNat, highByte_toNat]
  omega

/-- Settles O43: the number's bytes are the instruction's encoding. -/
theorem opcodeTableFieldsAreTheDecodersOperands : Obligations.OpcodeTableFieldsAreTheDecodersOperands := by
  refine ⟨fun dst value => ?_, fun dst addr => ?_, fun base src offset => ?_, fun dst lhs rhsBase rhsOffset => ?_⟩
  · rw [half_mul_eq, ← Nat.add_assoc]
    exact decodeTableWord_of_tableBytes (after := [0]) (tableBytes_four 192 dst (lowByte value) (highByte value))
  · rw [half_mul_eq, ← Nat.add_assoc]
    exact decodeTableWord_of_tableBytes (after := [0]) (tableBytes_four 247 dst (lowByte addr) (highByte addr))
  · exact decodeTableWord_of_tableBytes (after := [0]) (tableBytes_four 115 base src offset)
  · exact decodeTableWord_of_tableBytes (after := []) (tableBytes_five 83 dst lhs rhsBase rhsOffset)

/-- What the placing writes is the encoding of the instruction the word decodes to. -/
theorem tableInstrBytes_of_decodeTableWord {nbits w : Nat} {i : Instr} (h : decodeTableWord nbits w = some i) :
    tableInstrBytes nbits w = encode i := by
  unfold decodeTableWord at h
  split at h
  next j n hdecode =>
    obtain rfl := Option.some.inj h
    have hop : (tableBytes nbits w)[0]? = some (byteOf (w % 2 ^ nbits) 0) := rfl
    obtain ⟨rfl, hbytes⟩ := decode_eq_ok_iff.mp hdecode
    have hwidth : opcodeWidth (byteOf (w % 2 ^ nbits) 0) = some j.width := by
      rcases decode_cases hop with ⟨-, hd⟩ | ⟨n, -, -, hd⟩ | ⟨k, hk, hd⟩
      all_goals
        rw [hd] at hdecode
        cases hdecode
      exact hk
    rw [tableInstrBytes, hwidth]
    exact hbytes
  next => cases h

theorem decode_placeAt (prog : List Byte) (at_ : Nat) (i : Instr) :
    decode (placeAt prog at_ (encode i)) at_ = .ok (i, i.width) := by
  have hlength : (prog.take at_ ++ List.replicate (at_ - prog.length) 0).length = at_ := by
    rw [List.length_append, List.length_take, List.length_replicate]
    omega
  have h := decode_encode_between i (prog.take at_ ++ List.replicate (at_ - prog.length) 0)
    (prog.drop (at_ + (encode i).length))
  rwa [hlength] at h

/-- Settles O44: the bytes placed at the cursor are the instruction's encoding, which fetch decodes. -/
theorem placedWordRunsAsItsDecodedInstruction : Obligations.PlacedWordRunsAsItsDecodedInstruction := by
  refine fun s nbits w i h => ⟨step_of_decode_ok rfl (n := i.width) ?_, rfl, rfl, rfl⟩
  rw [State.withFetchWord, tableInstrBytes_of_decodeTableWord h]
  exact decode_placeAt s.prog s.pc i

end Sys2Proof.Machine

namespace Sys2Proof.Machine

/-! ### Runs as the instructions they execute (R42, R108 to R110) -/

/-- Every instruction takes at least four bytes of the stream. -/
theorem four_mul_length_le_length_streamOf (is : List Instr) : 4 * is.length ≤ (streamOf is).length := by
  induction is with
  | nil => exact Nat.zero_le _
  | cons i is ih =>
    have hpos : 4 ≤ i.width := width_pos i
    rw [streamOf_cons, List.length_append, length_encode, List.length_cons]
    omega

theorem streamOf_eq_nil_iff (is : List Instr) : (streamOf is).length = 0 ↔ is = [] := by
  have h := four_mul_length_le_length_streamOf is
  constructor
  · intro h0
    exact List.length_eq_zero_iff.mp (by omega)
  · rintro rfl
    rfl

/-- A run over the encoding of a list of instructions that stands at the cursor and ends the stream, with fuel for each. -/
theorem runFor_eq_execAll {is : List Instr} {n : Nat} (hn : is.length ≤ n) {s : State} {before : List Byte}
    (hprog : s.prog = before ++ streamOf is) (hpc : s.pc = before.length)
    (hstatus : s.status = if is = [] then .halted else .ready) : runFor n s = execAll is s := by
  induction is generalizing n s before with
  | nil =>
    have hhalted : s.status = .halted := hstatus
    exact runFor_of_not_ready (by simp [hhalted]) n
  | cons i is ih =>
    obtain ⟨n, rfl⟩ : ∃ m, n = m + 1 := ⟨n - 1, by rw [List.length_cons] at hn; omega⟩
    rw [streamOf_cons, ← List.append_assoc] at hprog
    have hdecode : decode s.prog s.pc = .ok (i, i.width) := by
      rw [hprog, hpc, decode_encode_between]
    obtain ⟨t, hexec⟩ := exists_exec_next i s
    have hstep : step s = .next t := (step_of_decode_ok hstatus hdecode).trans hexec
    rw [runFor_succ_of_next n hstep, execAll_cons_of_next hexec]
    split_ifs with hfaulted
    · exact runFor_of_not_ready (by simp [hfaulted]) n
    · obtain ⟨hpc', hstatus', -, hprog'⟩ := exec_completedBy hexec hfaulted
      refine ih (Nat.le_of_succ_le_succ hn) (hprog'.trans hprog) ?_ ?_
      · rw [hpc', hpc, List.length_append, length_encode]
      · have hend : s.pc + i.width = s.prog.length ↔ is = [] := by
          rw [hprog, hpc, List.length_append, List.length_append, length_encode, ← streamOf_eq_nil_iff]
          omega
        simp only [hstatus', hend]

/-- Settles O31: the bound of `run` is fuel enough, an instruction being four bytes at least. -/
theorem runOverAnEncodingIsItsInstructionsInOrder : Obligations.RunOverAnEncodingIsItsInstructionsInOrder := by
  intro is s before hprog hpc hstatus
  have hbytes := four_mul_length_le_length_streamOf is
  have hlength : s.prog.length = before.length + (streamOf is).length := by rw [hprog, List.length_append]
  have hfuel : is.length ≤ stepBound s := by
    unfold stepBound Config.lenMin
    omega
  exact runFor_eq_execAll hfuel hprog hpc hstatus

/-- A run from reset over the encoding of a list of instructions. -/
theorem run_init_streamOf (is : List Instr) : run (State.init (streamOf is)) = execAll is (State.init (streamOf is)) := by
  refine runOverAnEncodingIsItsInstructionsInOrder is _ [] rfl rfl ?_
  simp only [init_status, streamOf_eq_nil_iff]

/-- What a run that halts has executed is what the rest of the stream encodes. -/
theorem exists_streamOf_of_runFor_halted {n : Nat} {s : State} (h : CursorInv s) (hhalted : (runFor n s).status = .halted) :
    ∃ is, s.prog.drop s.pc = streamOf is ∧ runFor n s = execAll is s := by
  have ended {s : State} (h : CursorInv s) (hs : s.status = .halted) : s.prog.drop s.pc = streamOf [] :=
    List.drop_eq_nil_of_le (h.halted_iff.mp hs).2.ge
  induction n generalizing s with
  | zero => exact ⟨[], ended h hhalted, rfl⟩
  | succ n ih =>
    by_cases hs : s.status = .ready
    · obtain ⟨t, hstep⟩ := exists_step_of_ready hs
      rw [runFor_succ_of_next n hstep] at hhalted ⊢
      have hcompletes : t.status ≠ .faulted := by
        intro hfaulted
        rw [runFor_of_not_ready (by simp [hfaulted]), hfaulted] at hhalted
        cases hhalted
      obtain ⟨-, ⟨i, hfetch, hexec⟩ | ⟨e, -, rfl⟩⟩ := step_next_cases hstep
      · obtain ⟨is, hrest, hrun⟩ := ih (step_keeps_cursorInv h hstep) hhalted
        obtain ⟨hpc, -, -, hprog⟩ := exec_completedBy hexec hcompletes
        obtain ⟨-, hbytes⟩ := decode_eq_ok_iff.mp (decode_of_fetch_ok hfetch)
        refine ⟨i :: is, ?_, ?_⟩
        · rw [streamOf_cons, ← hbytes, ← hrest, hprog, hpc, ← List.drop_drop, List.take_append_drop]
        · rw [execAll_cons_of_next hexec, if_neg hcompletes, hrun]
      · exact absurd (raise_status s e) hcompletes
    · rw [runFor_of_not_ready hs] at hhalted ⊢
      exact ⟨[], ended h hhalted, rfl⟩

/-- Settles O30: a completed step moves the cursor by an instruction; a run that halts is cut by induction on its fuel. -/
theorem haltedRunExecutesExactlyTheCutOfTheStream : Obligations.HaltedRunExecutesExactlyTheCutOfTheStream := by
  refine ⟨fun s t hinv hstep hcompletes => ?_, fun prog => ⟨fun hhalted => ?_, ?_⟩⟩
  · obtain ⟨hpc, hprog⟩ := (step_pc_advances_or_faults hstep).resolve_right hcompletes
    exact ⟨hpc, hprog ▸ (step_keeps_cursorInv hinv.cursorInv hstep).pc_le⟩
  · obtain ⟨is, hbytes, hrun⟩ := exists_streamOf_of_runFor_halted (init_cursorInv prog) hhalted
    have hlength := four_mul_length_le_length_streamOf is
    obtain rfl : prog = streamOf is := hbytes
    exact ⟨is, rfl, hrun, by omega⟩
  · refine runFor_not_ready _ (init_cursorInv prog) ?_
    rw [init_prog, init_pc]
    omega

/-! ### Programs of LOAD_CONST (R82) -/

/-- The LOAD_CONST instructions of a list of destinations and values. -/
def loadConsts (l : List (Byte × Half)) : List Instr := l.map fun p => .loadConst p.1 p.2

/-- What executing LOAD_CONST instructions leaves: memory and fault record as they were, and in each register the value of
the last that names it. -/
theorem execAll_loadConsts (l : List (Byte × Half)) (s : State) (hs : s.status ≠ .faulted) :
    let t := execAll (loadConsts l) s
    t.status ≠ .faulted ∧ t.fault = s.fault ∧ t.memory = s.memory ∧
      ∀ d, t.reg d = ((l.reverse.find? fun p => p.1 = d).map fun p => zextW p.2).getD (s.reg d) := by
  induction l generalizing s with
  | nil => exact ⟨hs, rfl, rfl, fun d => rfl⟩
  | cons p l ih =>
    obtain ⟨dst, value⟩ := p
    have hcompletes := retire_not_faulted (s.setReg dst (zextW value)) Config.lenI
    have hexec : execAll (loadConsts ((dst, value) :: l)) s =
        execAll (loadConsts l) ((s.setReg dst (zextW value)).retire Config.lenI) := if_neg hcompletes
    obtain ⟨hstatus, hfault, hmem, hreg⟩ := ih _ hcompletes
    rw [hexec]
    refine ⟨hstatus, hfault, hmem, fun d => ?_⟩
    rw [hreg d, List.reverse_cons, List.find?_append]
    cases l.reverse.find? fun p => decide (p.1 = d) with
    | some q => rfl
    | none =>
      by_cases hd : dst = d
      · simp [hd]
      · simp [hd, reg_setReg_of_ne s dst _ (Ne.symm hd)]

/-- Settles O32: the run is the list executed in order; it ends, and no LOAD_CONST faults. -/
theorem loadConstProgramsHaltWithMemoryZero : Obligations.LoadConstProgramsHaltWithMemoryZero := by
  intro l t
  have hrun : t = execAll (loadConsts l) (State.init (streamOf (loadConsts l))) := run_init_streamOf (loadConsts l)
  obtain ⟨hcompletes, hfault, hmem, hreg⟩ := execAll_loadConsts l _ (init_status_ne_faulted (streamOf (loadConsts l)))
  rw [← hrun] at hcompletes hfault hmem hreg
  obtain ⟨-, hended⟩ := everyRunEnds _ (init_inv (streamOf (loadConsts l)))
  refine ⟨hended.resolve_right hcompletes, hfault, fun a => by rw [hmem]; rfl, fun d => ?_⟩
  rw [hreg d, init_reg]
  cases l.reverse.find? fun p => decide (p.1 = d) with
  | none => rfl
  | some p => exact toNat_zextW p.2

/-! ### Programs of one instruction (R116) -/

theorem streamOf_singleton (i : Instr) : streamOf [i] = encode i := by
  rw [streamOf_cons]
  exact List.append_nil _

/-- The run of an instruction from reset, alone in its stream, that completes. -/
theorem run_init_encode {i : Instr} {t : State} (hexec : exec i (State.init (encode i)) = .next t)
    (hdone : completedBy (State.init (encode i)) t i.width) :
    run (State.init (encode i)) = t ∧ t.status = .halted ∧ t.pc = i.width := by
  obtain ⟨hpc, hstatus, -⟩ := hdone
  have hhalted : t.status = .halted := by simpa using hstatus
  have hrun := run_init_streamOf [i]
  rw [streamOf_singleton, execAll_cons_of_next hexec, hhalted] at hrun
  exact ⟨hrun, hhalted, by rw [hpc, init_pc, Nat.zero_add]⟩

theorem init_basePlusOffset (prog : List Byte) (base offset : Byte) :
    (State.init prog).basePlusOffset base offset = offset.toNat := by
  simp [State.basePlusOffset]

theorem init_indirect (prog : List Byte) (r : Byte) : (State.init prog).indirect r = 0 := by
  simp [State.indirect]

theorem read_init (prog : List Byte) (a : Nat) : Memory.read (State.init prog).memory a = 0 := rfl

/-- Settles O33: each instruction completes from reset, where every address is its offset, and its frame is all 0. -/
theorem singleInstructionProgramsFromReset : Obligations.SingleInstructionProgramsFromReset := by
  refine ⟨fun dst value => ?loadConst, fun dst addr haddr => ?readMem, fun base src offset => ?writeMem,
    fun dst lhs rhsBase rhsOffset => ?binOpLe⟩
  case loadConst =>
    obtain ⟨-, t, hexec, hdst, hregs, hmem, hdone⟩ :=
      loadConstWritesItsConstant dst value (State.init (encode (.loadConst dst value)))
    obtain ⟨hrun, hhalted, hpc⟩ := run_init_encode hexec hdone
    rw [hrun]
    exact ⟨hhalted, hpc, hdst, fun j hj => (hregs j hj).trans (init_reg _ j), hmem⟩
  case readMem =>
    obtain ⟨-, hcompletes, -⟩ := readMemLoadsTheAddressedCell dst addr (State.init (encode (.readMem dst addr)))
    obtain ⟨t, hexec, hdst, hregs, hmem, hdone⟩ := hcompletes (Nat.lt_succ_of_le haddr)
    obtain ⟨hrun, hhalted, hpc⟩ := run_init_encode hexec hdone
    rw [hrun]
    refine ⟨hhalted, hpc, fun j => ?_, hmem⟩
    by_cases hj : j = dst
    · rw [hj, hdst, read_init]
    · rw [hregs j hj, init_reg]
  case writeMem =>
    have hoffset : offset.toNat < 256 := offset.isLt
    obtain ⟨-, -, hcompletes, -⟩ :=
      writeMemStoresAtBasePlusOffset base src offset (State.init (encode (.writeMem base src offset)))
    rw [init_basePlusOffset] at hcompletes
    obtain ⟨t, hexec, hcell, hmem, hregs, hdone⟩ := hcompletes (by omega)
    obtain ⟨hrun, hhalted, hpc⟩ := run_init_encode hexec hdone
    rw [hrun]
    refine ⟨hhalted, hpc, fun j => (hregs j).trans (init_reg _ j), fun a => ?_⟩
    by_cases ha : a = offset.toNat
    · rw [ha, hcell, init_reg]
    · rw [hmem a ha, read_init]
  case binOpLe =>
    have hoffset : rhsOffset.toNat < 256 := rhsOffset.isLt
    obtain ⟨-, -, -, hcompletes, -⟩ :=
      binOpLeStoresTheComparison dst lhs rhsBase rhsOffset (State.init (encode (.binOpLe dst lhs rhsBase rhsOffset)))
    rw [init_basePlusOffset, init_indirect, init_reg] at hcompletes
    obtain ⟨t, hexec, hcell, hmem, hregs, hdone⟩ := hcompletes (by omega) (by decide)
    obtain ⟨hrun, hhalted, hpc⟩ := run_init_encode hexec hdone
    rw [hrun]
    have hone : Memory.read t.memory 0 = 1 := BitVec.eq_of_toNat_eq (hcell.trans (if_pos (Nat.zero_le _)))
    exact ⟨hhalted, hpc, fun j => (hregs j).trans (init_reg _ j), hone, hmem⟩

end Sys2Proof.Machine
